-- ==== Sys2Proof/Word.lean ====
section
/-! DEFINITION. The word types of the block (rules R7, R9, R20 and R251). -/

namespace Sys2Proof

/-- A byte of a message, a buffer or a digest. -/
abbrev Byte := BitVec 8

/-- A hexadecimal digit's value, and the width of STATUS.ERRCODE (rule R28). -/
abbrev Nibble := BitVec 4

/-- A CSR, a command word or a bus value: "All host-visible registers are 32 bits wide" (rule R9). -/
abbrev Word := BitVec 32

/-- A host address: "The host address space is 16 bits wide and byte-addressed" (rule R9). -/
abbrev Addr := BitVec 16

/-- "Each lane is a 64-bit unsigned value" (rule R20). -/
abbrev Lane := BitVec 64

/-- A 16-bit limb of the limb-form datapath (rule R251). -/
abbrev Limb := BitVec 16

/-- A 32-bit half of the half-lane datapath (rule R254). -/
abbrev Half := BitVec 32

/-- The lane state `S[0..24]`: "the state is always exactly 25 lanes" (rule R20). -/
abbrev Lanes := Vector Lane 25

end Sys2Proof
end

