-- ==== Sys2Proof/Syntax.lean ====
section
/-! DEFINITION. The commands of the block: one constructor per row of spec/opcode_table.json (rules R90, R93). -/

namespace Sys2Proof

/-- The four commands. Each keeps bit 4 of its word, RAW. HASH and SHAKE read it (true = raw output, false = lowercase
hexadecimal). PERMUTE and CLEAR ignore it (rule R91), and keep it so that no bit of the encoding is dropped
(DESIGN CHOICE, assumption 8). -/
inductive Instr where
  /-- HASH (rule R210): Keccak-224/256/384/512 of IBUF[0 .. IN_LEN−1]. -/
  | hash (raw : Bool)
  /-- SHAKE (rule R215): SHAKE128/256 of IBUF[0 .. IN_LEN−1], OUT_LEN bits. -/
  | shake (raw : Bool)
  /-- PERMUTE (rule R220): STATE ← Keccak-f[1600](STATE). -/
  | permute (raw : Bool)
  /-- CLEAR (rule R222): STATE ← 0. -/
  | clear (raw : Bool)
deriving DecidableEq, Repr

end Sys2Proof
end

