-- ==== Sys2Proof/Decode.lean ====
section
/-! DEFINITION. The decoder of the command word (rule R91), total on every 32-bit word, then the encoder (rules R90, R93). -/

namespace Sys2Proof

/-- Why a command word is reserved (rule R94). -/
inductive Illegal where
  /-- A 1 stands in bits [31:5]. -/
  | reservedBits
  /-- OP is 0x0 or 0x5 to 0xF. -/
  | reservedOp
deriving DecidableEq, Repr

/-- What a command word decodes to: "every 32-bit word decodes to exactly one kind" (rule R91). -/
inductive Decoded where
  | instr (i : Instr)
  | illegal (why : Illegal)
deriving DecidableEq, Repr

/-- OP, bits [3:0] of the command word (rule R27). -/
def opField (w : Word) : Nibble := w.extractLsb' 0 4

/-- RAW, bit [4] of the command word (rule R27). -/
def rawField (w : Word) : Bool := w.getLsbD 4

/-- RSV, bits [31:5] of the command word (rule R90). -/
def rsvField (w : Word) : BitVec 27 := w.extractLsb' 5 27

/-- The decoder of rule R91. -/
def decode (w : Word) : Decoded :=
  if rsvField w ≠ 0 then .illegal .reservedBits
  else if opField w = 0x1 then .instr (.hash (rawField w))
  else if opField w = 0x2 then .instr (.shake (rawField w))
  else if opField w = 0x3 then .instr (.permute (rawField w))
  else if opField w = 0x4 then .instr (.clear (rawField w))
  else .illegal .reservedOp

/-- The instruction the decoder reads from a word of the opcode table. A command is one 32-bit word written to CMD whole
(rule R95), so there is nothing to lay out in bytes: the bits above nbits are 0, and a value wider than the word is none. -/
def decodeTableWord (nbits w : Nat) : Option Instr :=
  if w % 2 ^ nbits < 2 ^ 32 then
    match decode (BitVec.ofNat 32 (w % 2 ^ nbits)) with
    | .instr i => some i
    | .illegal _ => none
  else none

/-- The one format of rule R90, most significant field first: RSV (27 zero bits), RAW, OP. -/
def cmdWord (raw : Bool) (op : Nibble) : Word := 0#27 ++ BitVec.ofBool raw ++ op

/-- The command word of an instruction (rule R93). -/
def encode : Instr → Word
  | .hash raw => cmdWord raw 0x1
  | .shake raw => cmdWord raw 0x2
  | .permute raw => cmdWord raw 0x3
  | .clear raw => cmdWord raw 0x4

end Sys2Proof
end

