-- ==== Sys2Proof/Config.lean ====
section
/-! DEFINITION. What one build of the block fixes (rule R8), and the free values the spec leaves open. -/

namespace Sys2Proof

/-- The open parameters of rule R8. LATENCY, the third, has no number here: which agent moves next is data of State (DESIGN CHOICE,
assumption 2). -/
structure Config where
  /-- IBUF_BYTES, the size of the input buffer. -/
  ibufBytes : Nat
  /-- OBUF_BYTES, the size of the output buffer. -/
  obufBytes : Nat
deriving DecidableEq, Repr

/-- The constraints of rule R8: 1 ≤ IBUF_BYTES ≤ 16384 and 128 ≤ OBUF_BYTES ≤ 32768. -/
def Config.legal (c : Config) : Bool :=
  decide (1 ≤ c.ibufBytes ∧ c.ibufBytes ≤ 16384 ∧ 128 ≤ c.obufBytes ∧ c.obufBytes ≤ 32768)

/-- The reference configuration of rule R8. -/
def Config.reference : Config := { ibufBytes := 4096, obufBytes := 1024 }

/-- FREE VALUE. The k-th draw of the machine: a byte the spec leaves unspecified (rules R17, R33, R35, R70, R302).
Nothing constrains it. Each use takes the next k, so two draws need not agree (assumption 3). -/
opaque Config.freeByte : Nat → Byte

end Sys2Proof
end

