-- ==== Sys2Proof/Machine/Port.lean ====
section
/-! DEFINITION. What the outside world can do at the block's ports (rules R65, R66): the host's transactions, the reset pin,
and the turn of the block itself. -/

namespace Sys2Proof.Machine

/-- The access sizes of rule R66: "n ∈ {1, 2, 4}"; "Other sizes do not exist on the port." -/
inductive Size where
  | one
  | two
  | four
deriving DecidableEq, Repr

/-- A host transaction (rule R66). -/
inductive Tx where
  /-- `MemRead(addr, n)`. -/
  | read (addr : Addr) (size : Size)
  /-- `MemWrite(addr, n, v)`; v is an n-byte value (WellFormed.lean). -/
  | write (addr : Addr) (size : Size) (value : Word)
deriving DecidableEq, Repr

/-- One entry of an execution. Rule R75: "An execution is an interleaving of host transactions with at most one completion
step per accepted command"; rule R300 adds the reset pin. -/
inductive Event where
  /-- The host performs one transaction. -/
  | host (tx : Tx)
  /-- The block takes its turn: its completion step if BUSY = 1 (rule R201), else nothing. -/
  | block
  /-- A rising edge of `clk` with the pin `rst` at this level (rules R300 to R303). -/
  | reset (level : Bool)
deriving DecidableEq, Repr

end Sys2Proof.Machine
end

