-- ==== Sys2Proof/Machine/State.lean ====
section
/-! DEFINITION. The state of the block as plain data (10_state.md), the ways a step can stop, and the state after reset
(rules R41, R300). -/

namespace Sys2Proof.Machine

/-- The reasons a step can stop with a fault: there are none. Rule R271: "No host transaction ever fails or traps."; every
failure of a command is an ERRCODE in STATUS (rule R17). -/
inductive Fault where
deriving DecidableEq, Repr

/-- The reasons a step can refuse. -/
inductive Refusal where
  /-- Raised by an arm of exec whose instruction has no meaning yet. No arm raises it. Safe. -/
  | notModelled (mnemonic : String)
deriving DecidableEq, Repr

/-- The error codes of rule R270; codes 7 to 15 are "never produced". -/
inductive ErrCode where
  /-- 0, success. -/
  | ok
  /-- 1, HASH: SIZE is none of 224, 256, 384, 512. -/
  | unsupportedMdLen
  /-- 2, SHAKE: SIZE is neither 128 nor 256. -/
  | unsupportedSecurityLevel
  /-- 3, SHAKE: OUT_LEN is 0 or no multiple of 8. -/
  | badOutLen
  /-- 4, HASH and SHAKE: IN_LEN > IBUF_BYTES. -/
  | inLenTooLarge
  /-- 5, SHAKE: the output does not fit OBUF. -/
  | outTooLarge
  /-- 6, a reserved command word. -/
  | illegalCmd
deriving DecidableEq, Repr

/-- The sequencer as far as the interface sees it: "It is IDLE exactly when BUSY = 0" (rule R40). A running command holds
the hidden copy CMDW of its word (rule R200), which exists only while the command runs (rule R38; DESIGN CHOICE, assumption 9). -/
inductive Sequencer where
  | idle
  | running (cmdw : Word)
deriving DecidableEq, Repr

/-- The buffer bytes written since reset: (host address, byte) pairs, addresses strictly rising. An address in IBUF or OBUF
that is not listed has not been written since reset and reads as a draw (rules R33, R35), so no entry can equal what an
unlisted address reads as. -/
abbrev Memory := List Host.Cell

/-- The state of the block. The first group is the spec's; the last four fields are the model's own. -/
structure State where
  /-- The lanes S[0..24] (rule R20). -/
  lanes : Vector Lane 25
  /-- The sequencer and CMDW; STATUS.BUSY is the computed view of it (rules R28, R40). -/
  seq : Sequencer
  /-- STATUS.DONE (rule R28). -/
  done : Bool
  /-- STATUS.ERRCODE (rule R28). -/
  err : ErrCode
  /-- IN_LEN (rule R29). -/
  inLen : Word
  /-- SIZE (rule R30). -/
  size : Word
  /-- OUT_LEN (rule R31). -/
  outLen : Word
  /-- OUT_COUNT (rule R32). -/
  outCount : Word
  /-- IBUF and OBUF at their host addresses (rules R33, R35, R62; assumption 7). -/
  mem : Memory
  /-- The level of the pin `rst` at the last clock edge (rules R65, R300; DESIGN CHOICE, assumption 6). -/
  rst : Bool
  /-- The data lines of the host bus: what the last MemRead returned (rules R65, R66; DESIGN CHOICE,
  assumption 5). -/
  rdata : Word
  /-- IBUF_BYTES and OBUF_BYTES, what IBUF_SIZE and OBUF_SIZE read as (rules R8, R34); no step changes them (DESIGN CHOICE,
  assumption 4). -/
  cfg : Config
  /-- The rest of the execution: who moves next (rule R75; DESIGN CHOICE, assumption 2). -/
  agenda : List Event
  /-- How many draws have been taken (rule R17; DESIGN CHOICE, assumption 3). -/
  draws : Nat
deriving DecidableEq, Repr

/-- "the all-zero state" (rule R164). -/
def zeroLanes : Vector Lane 25 := Vector.replicate 25 0

/-- The values of rule R41 for a build with the configuration c, with `rst` low (rule R303). -/
def State.resetOf (c : Config) : State where
  lanes := zeroLanes
  seq := .idle
  done := false
  err := .ok
  inLen := 0
  size := 0
  outLen := 0
  outCount := 0
  mem := []
  rst := false
  rdata := 0
  cfg := c
  agenda := []
  draws := 0

/-- The machine right after reset, built with the reference configuration of rule R8 (DESIGN CHOICE, assumption 1). -/
def State.reset : State := State.resetOf Config.reference

end Sys2Proof.Machine
end

