-- ==== Sys2Proof/Machine/Ops.lean ====
section
/-! DEFINITION. The operations the commands and the bus share: byte order, the buffer memory, draws, acceptance, completion
(the block's one "exception entry", rule R275) and the reset edge. -/

namespace Sys2Proof.Machine

/-- Little-endian assembly: `Σ byte[k] << 8k` (rules R68, R161). -/
def fromLE (w : Nat) : List Byte → BitVec w
  | [] => 0
  | b :: bs => b.setWidth w ||| (fromLE w bs <<< 8)

/-- The first n bytes of a value, least significant first (rules R68, R162). -/
def toLE {w : Nat} (n : Nat) (v : BitVec w) : List Byte :=
  (List.range n).map fun k => v.extractLsb' (8 * k) 8

/-- The stored byte at a host address, if it has been written since reset. -/
def Memory.get? : Memory → Nat → Option Byte
  | [], _ => none
  | (a, b) :: m, x => if x = a then some b else Memory.get? m x

/-- Store one byte, keeping the addresses strictly rising. -/
def Memory.set : Memory → Nat → Byte → Memory
  | [], x, v => [(x, v)]
  | (a, b) :: m, x, v =>
    if x < a then (x, v) :: (a, b) :: m
    else if x = a then (x, v) :: m
    else (a, b) :: Memory.set m x v

/-- Store bytes at x, x+1, … in that order. -/
def Memory.writeBytes : Memory → Nat → List Byte → Memory
  | m, _, [] => m
  | m, x, b :: bs => Memory.writeBytes (m.set x b) (x + 1) bs

/-- The canonical form: addresses strictly rising. No entry can equal what an unlisted address reads as, which is a draw. -/
abbrev Memory.wf (m : Memory) : Prop := m.Pairwise fun p q => p.1 < q.1

/-- The address of IBUF byte 0 (rule R62). -/
def ibufBase : Nat := 0x4000

/-- The address of OBUF byte 0 (rule R62). -/
def obufBase : Nat := 0x8000

/-- The address is one of IBUF's (rule R60). -/
def inIbuf (c : Config) (a : Nat) : Bool := decide (ibufBase ≤ a ∧ a < ibufBase + c.ibufBytes)

/-- The address is one of OBUF's (rule R60). -/
def inObuf (c : Config) (a : Nat) : Bool := decide (obufBase ≤ a ∧ a < obufBase + c.obufBytes)

/-- What a buffer byte reads as: its stored value, or the d-th draw if it is unwritten (rules R33, R35). -/
def Memory.readOr (m : Memory) (a : Nat) (d : Nat) : Byte := (m.get? a).getD (Config.freeByte d)

/-- The number of draws after a buffer byte is read: one more if the byte is unwritten. -/
def Memory.drawsAfter (m : Memory) (a : Nat) (d : Nat) : Nat := if (m.get? a).isSome then d else d + 1

/-- The n buffer bytes from a on, each exactly as stored (rule R73) or drawn, and the number of draws afterwards. -/
def Memory.readBytes (m : Memory) : Nat → Nat → Nat → List Byte × Nat
  | _, 0, d => ([], d)
  | a, n + 1, d =>
    let rest := m.readBytes (a + 1) n (m.drawsAfter a d)
    (m.readOr a d :: rest.1, rest.2)

/-- n draws from the d-th on. -/
def drawBytes (n d : Nat) : List Byte := (List.range n).map fun k => Config.freeByte (d + k)

/-- STATUS.BUSY: the sequencer is not IDLE (rule R40). -/
def State.busy (s : State) : Bool :=
  match s.seq with
  | .idle => false
  | .running _ => true

/-- Acceptance of the command word w (rule R200): "Acceptance changes nothing else." -/
def accept (w : Word) (s : State) : State :=
  { s with seq := .running w, done := false, err := .ok }

/-- Completion with the error code e (rules R201, R275), after the command's own effects. This is all that taking an error
does: no program counter is saved, no vector is used, no mode changes, and there is no return operation (rule R276). -/
def complete (e : ErrCode) (s : State) : State :=
  { s with seq := .idle, done := true, err := e, outCount := if e = .ok then s.outCount else 0 }

/-- `raise Error(code)` (rule R272): the completion with that code and nothing else. -/
def raise (e : ErrCode) (s : State) : Host.Outcome State Fault Refusal := .next (complete e s)

/-- A rising clock edge with `rst` at the given level. High (rule R300): the block enters the state of rule R41 and the
buffers become unspecified, whatever was running (rules R274, R301). Low (rule R303): the block leaves reset. -/
def resetEdge (level : Bool) (s : State) : State :=
  if level then
    { State.resetOf s.cfg with rst := true, rdata := s.rdata, agenda := s.agenda, draws := s.draws }
  else { s with rst := false }

end Sys2Proof.Machine
end

