-- ==== Sys2Proof/Machine/Flags.lean ====
section
/-! DEFINITION. The STATUS register (rule R28), "the block has no condition codes and no flags other than the STATUS fields"
(rule R36), and the two output pins that show it (rule R65). -/

namespace Sys2Proof.Machine

/-- The 4-bit code of an error (rule R270). -/
def ErrCode.code : ErrCode → Nibble
  | .ok => 0
  | .unsupportedMdLen => 1
  | .unsupportedSecurityLevel => 2
  | .badOutLen => 3
  | .inLenTooLarge => 4
  | .outTooLarge => 5
  | .illegalCmd => 6

/-- STATUS as a word (rule R28): bits [31:8] zero, ERRCODE [7:4], bits [3:2] zero, DONE [1], BUSY [0]. -/
def State.status (s : State) : Word :=
  0#24 ++ s.err.code ++ 0#2 ++ BitVec.ofBool s.done ++ BitVec.ofBool s.busy

/-- The output `busy_o`: "level, equal to STATUS.BUSY" (rule R65). -/
def State.busyO (s : State) : Bool := s.busy

/-- The output `done_o`: "level, equal to STATUS.DONE" (rules R65, R280). -/
def State.doneO (s : State) : Bool := s.done

end Sys2Proof.Machine
end

