-- ==== Sys2Proof/WellFormed.lean ====
section
/-! DEFINITION. The well-formedness checks. Rule R92: "A command word carries no immediates, no register numbers and no
lengths", so every command is well formed; the checks with content are on the bus values and the configuration. -/

namespace Sys2Proof

/-- Every command is encodable: its one operand is the bit RAW (rule R92). -/
def Instr.wf : Instr → Bool
  | .hash _ => true
  | .shake _ => true
  | .permute _ => true
  | .clear _ => true

namespace Machine

/-- The number n of bytes of an access (rule R66). -/
def Size.bytes : Size → Nat
  | .one => 1
  | .two => 2
  | .four => 4

/-- "`MemWrite(addr, n, v)`, which writes the n-byte value v" (rule R66): v must fit in n bytes. A step on an ill-formed
write takes v's low n bytes (DESIGN CHOICE, assumption 13). -/
def Tx.wf : Tx → Bool
  | .read _ _ => true
  | .write _ n v => decide (v.toNat < 2 ^ (8 * n.bytes))

/-- An event is well formed when its transaction is. -/
def Event.wf : Event → Bool
  | .host t => t.wf
  | .block => true
  | .reset _ => true

end Machine

end Sys2Proof
end

