-- ==== Sys2Proof/Machine/Bus.lean ====
section
/-! DEFINITION. The host interface (20_memory.md): the address map, CSR access, the STATE window, the buffers, and a host
transaction as one atomic step. -/

namespace Sys2Proof.Machine

/-- The eight CSRs (rule R26). -/
inductive Csr where
  | cmd
  | status
  | inLen
  | size
  | outLen
  | outCount
  | ibufSize
  | obufSize
deriving DecidableEq, Repr

/-- Where a host address lies (rule R60). -/
inductive Region where
  /-- Byte k of a CSR. -/
  | csr (c : Csr) (k : Nat)
  /-- Byte k of lane i in the STATE window (rule R63). -/
  | lane (i : Fin 25) (k : Nat)
  /-- A byte of IBUF. -/
  | ibuf
  /-- A byte of OBUF. -/
  | obuf
  /-- No byte of the block (rule R61). -/
  | reserved
deriving DecidableEq, Repr

/-- The CSR at the host byte offset 4q (rule R26). -/
def csrAt (q : Nat) : Csr :=
  match q with
  | 0 => .cmd
  | 1 => .status
  | 2 => .inLen
  | 3 => .size
  | 4 => .outLen
  | 5 => .outCount
  | 6 => .ibufSize
  | _ => .obufSize

/-- The address map of rule R60. -/
def regionOf (c : Config) (a : Nat) : Region :=
  if a < 0x20 then .csr (csrAt (a / 4)) (a % 4)
  else if h : 0x100 ≤ a ∧ a < 0x1C8 then .lane ⟨(a - 0x100) / 8, by omega⟩ ((a - 0x100) % 8)
  else if inIbuf c a then .ibuf
  else if inObuf c a then .obuf
  else .reserved

/-- What a CSR reads as (rules R26 to R34): "A read of CMD returns 0"; IBUF_SIZE and OBUF_SIZE are the build's sizes. -/
def csrValue (s : State) : Csr → Word
  | .cmd => 0
  | .status => s.status
  | .inLen => s.inLen
  | .size => s.size
  | .outLen => s.outLen
  | .outCount => s.outCount
  | .ibufSize => BitVec.ofNat 32 s.cfg.ibufBytes
  | .obufSize => BitVec.ofNat 32 s.cfg.obufBytes

/-- The effect of a whole-register write while BUSY = 0: CMD issues a command (rule R200), the three parameters are
writable, "A write to a read-only CSR is ignored" (rule R26). -/
def csrWrite (c : Csr) (v : Word) (s : State) : State :=
  match c with
  | .cmd => accept v s
  | .inLen => { s with inLen := v }
  | .size => { s with size := v }
  | .outLen => { s with outLen := v }
  | .status => s
  | .outCount => s
  | .ibufSize => s
  | .obufSize => s

/-- `S[i][8k+7 : 8k]` (rule R63). -/
def laneByte (v : Lane) (k : Nat) : Byte := v.extractLsb' (8 * k) 8

/-- The lane with byte k replaced; "leaves the other bits unchanged" (rule R63). -/
def setLaneByte (v : Lane) (k : Nat) (b : Byte) : Lane :=
  (v &&& ~~~(0xFF#64 <<< (8 * k))) ||| (b.setWidth 64 <<< (8 * k))

/-- The byte a host reads at an address, d being the next draw. While BUSY = 1 the STATE window and OBUF read as draws, CSRs
and IBUF as ever (rule R70); an unwritten buffer byte is a draw; a reserved byte is 0 (rule R61). -/
def hostByte (s : State) (a d : Nat) : Byte :=
  match regionOf s.cfg a with
  | .csr c k => (csrValue s c).extractLsb' (8 * k) 8
  | .lane i k => if s.busy then Config.freeByte d else laneByte s.lanes[i] k
  | .ibuf => s.mem.readOr a d
  | .obuf => if s.busy then Config.freeByte d else s.mem.readOr a d
  | .reserved => 0

/-- The number of draws after that byte is read. -/
def hostByteDraws (s : State) (a d : Nat) : Nat :=
  match regionOf s.cfg a with
  | .csr _ _ => d
  | .lane _ _ => if s.busy then d + 1 else d
  | .ibuf => s.mem.drawsAfter a d
  | .obuf => if s.busy then d + 1 else s.mem.drawsAfter a d
  | .reserved => d

/-- The n bytes a host reads from a on, each by the rule of its own region (rule R71), and the draws afterwards. -/
def hostBytes (s : State) : Nat → Nat → Nat → List Byte × Nat
  | _, 0, d => ([], d)
  | a, n + 1, d =>
    let rest := hostBytes s (a + 1) n (hostByteDraws s a d)
    (hostByte s a d :: rest.1, rest.2)

/-- `MemRead(addr, n)` (rules R66 to R71): the value returned and the draws afterwards. While `rst` is high it is
unspecified (rule R302; aligned or not: DEDUCED, assumption 14); misaligned it is 0 (rule R69), in the STATE window and
OBUF while BUSY = 1 too, where rules R17, R70 and R305 leave a read unspecified (DEDUCED, assumption 18). -/
def memRead (s : State) (addr : Addr) (n : Size) : Word × Nat :=
  if s.rst then (fromLE 32 (drawBytes n.bytes s.draws), s.draws + n.bytes)
  else if addr.toNat % n.bytes ≠ 0 then (0, s.draws)
  else
    let r := hostBytes s addr.toNat n.bytes s.draws
    (fromLE 32 r.1, r.2)

/-- The effect of a host write of one byte outside the CSR range (rules R61 to R63). -/
def writeHostByte (s : State) (a : Nat) (b : Byte) : State :=
  match regionOf s.cfg a with
  | .csr _ _ => s
  | .lane i k => { s with lanes := s.lanes.set i (setLaneByte s.lanes[i] k b) }
  | .ibuf => { s with mem := s.mem.set a b }
  | .obuf => { s with mem := s.mem.set a b }
  | .reserved => s

/-- The bytes of a write, stored one by one at a, a+1, … (rules R68, R71). -/
def writeHostBytes : State → Nat → List Byte → State
  | s, _, [] => s
  | s, a, b :: bs => writeHostBytes (writeHostByte s a b) (a + 1) bs

/-- `MemWrite(addr, n, v)`. Ignored while `rst` is high (rule R302), while BUSY = 1 (rule R70), when misaligned (rule R69),
and in the CSR range unless it is a 4-byte access (rule R67). -/
def memWrite (s : State) (addr : Addr) (n : Size) (v : Word) : State :=
  if s.rst || s.busy then s
  else if addr.toNat % n.bytes ≠ 0 then s
  else if addr.toNat < 0x20 then
    match n with
    | .four => csrWrite (csrAt (addr.toNat / 4)) v s
    | .one => s
    | .two => s
  else writeHostBytes s addr.toNat (toLE n.bytes v)

/-- One host transaction, atomic (rule R66). A read changes nothing but the bus's data lines and the draw count. -/
def hostTx (t : Tx) (s : State) : State :=
  match t with
  | .read a n => { s with rdata := (memRead s a n).1, draws := (memRead s a n).2 }
  | .write a n v => memWrite s a n v

end Sys2Proof.Machine
end

