-- ==== Sys2Proof/Machine/Keccak.lean ====
section
/-! DEFINITION. The Keccak-f[1600] permutation (41_permutation.md) on 64-bit lanes. -/

namespace Sys2Proof.Machine

/-- A lane from its high and its low 32 bits; rule R120: the document writes each constant "high 32 bits, low 32 bits". -/
def joinHalves (high low : Half) : Lane := high ++ low

/-- The round constants RC[0..23] (rule R120), each by its two halves; two constants a line, from RC[0] on. -/
def roundConstants : Vector Lane 24 := #v[
  joinHalves 0x00000000 0x00000001, joinHalves 0x00000000 0x00008082,
  joinHalves 0x80000000 0x0000808A, joinHalves 0x80000000 0x80008000,
  joinHalves 0x00000000 0x0000808B, joinHalves 0x00000000 0x80000001,
  joinHalves 0x80000000 0x80008081, joinHalves 0x80000000 0x00008009,
  joinHalves 0x00000000 0x0000008A, joinHalves 0x00000000 0x00000088,
  joinHalves 0x00000000 0x80008009, joinHalves 0x00000000 0x8000000A,
  joinHalves 0x00000000 0x8000808B, joinHalves 0x80000000 0x0000008B,
  joinHalves 0x80000000 0x00008089, joinHalves 0x80000000 0x00008003,
  joinHalves 0x80000000 0x00008002, joinHalves 0x80000000 0x00000080,
  joinHalves 0x00000000 0x0000800A, joinHalves 0x80000000 0x8000000A,
  joinHalves 0x80000000 0x80008081, joinHalves 0x80000000 0x00008080,
  joinHalves 0x00000000 0x80000001, joinHalves 0x80000000 0x80008008]

/-- The rotation offsets rotc[0..23] (rule R121). -/
def rotc : Vector Nat 24 :=
  #v[1, 3, 6, 10, 15, 21, 28, 36, 45, 55, 2, 14, 27, 41, 56, 8, 25, 43, 62, 18, 39, 61, 20, 44]

/-- The destination indices piln[0..23] of π (rule R122). -/
def piln : Vector (Fin 25) 24 :=
  #v[10, 7, 11, 17, 18, 3, 5, 16, 8, 21, 24, 4, 15, 23, 19, 13, 12, 2, 20, 14, 22, 9, 6, 1]

/-- The linear index i = x + 5y of lane (x, y) (rule R11). -/
def laneIdx (x y : Fin 5) : Fin 25 := ⟨x.val + 5 * y.val, by omega⟩

/-- The coordinate x of a linear index. -/
def laneX (i : Fin 25) : Fin 5 := ⟨i.val % 5, by omega⟩

/-- The coordinate y of a linear index. -/
def laneY (i : Fin 25) : Fin 5 := ⟨i.val / 5, by omega⟩

/-- ROTL64 (rule R124), the amount taken modulo 64. -/
def rotl64 (v : Lane) (n : Nat) : Lane :=
  if n % 64 = 0 then v else (v <<< (n % 64)) ||| (v >>> (64 - n % 64))

/-- The column parities C[0..4] of θ (rule R126). -/
def thetaC (S : Lanes) : Vector Lane 5 :=
  Vector.ofFn fun x => S[laneIdx x 0] ^^^ S[laneIdx x 1] ^^^ S[laneIdx x 2] ^^^ S[laneIdx x 3] ^^^ S[laneIdx x 4]

/-- D[0..4] of θ, from C alone; x − 1 and x + 1 are modulo 5 (rules R11, R126). -/
def thetaD (C : Vector Lane 5) : Vector Lane 5 :=
  Vector.ofFn fun x => C[x - 1] ^^^ rotl64 C[x + 1] 1

/-- θ (rule R126). -/
def theta (S : Lanes) : Lanes :=
  let D := thetaD (thetaC S)
  Vector.ofFn fun i => S[i] ^^^ D[laneX i]

/-- Step i of the combined ρ+π traversal, on S' and the carried lane t: `cur` is read before S'[j] is written (rule R128). -/
def rhoPiStep (st : Lanes × Lane) (i : Fin 24) : Lanes × Lane :=
  let j := piln[i]
  (st.1.set j (rotl64 st.2 rotc[i]), st.1[j])

/-- ρ + π (rule R128). -/
def rhoPi (S : Lanes) : Lanes :=
  ((List.finRange 24).foldl rhoPiStep (S, S[(1 : Fin 25)])).1

/-- χ (rule R130): every lane is computed from the row before any write. -/
def chi (S : Lanes) : Lanes :=
  Vector.ofFn fun i =>
    let x := laneX i
    let y := laneY i
    S[i] ^^^ (~~~ S[laneIdx (x + 1) y] &&& S[laneIdx (x + 2) y])

/-- ι (rule R131). -/
def iota (S : Lanes) (k : Fin 24) : Lanes := S.set 0 (S[(0 : Fin 25)] ^^^ roundConstants[k])

/-- Round(S, k) (rule R132). -/
def keccakRound (S : Lanes) (k : Fin 24) : Lanes := iota (chi (rhoPi (theta S))) k

/-- Keccak-f[1600]: "the 24 rounds in order" (rule R133). Irreducible, so that no unification runs it by accident. -/
@[irreducible] def keccakF (S : Lanes) : Lanes := (List.finRange 24).foldl keccakRound S

/-- KeccakF applied n times (rule R220: "n PERMUTE commands in a row apply KeccakF n times"). -/
def keccakIter : Nat → Lanes → Lanes
  | 0, S => S
  | n + 1, S => keccakIter n (keccakF S)

end Sys2Proof.Machine
end

