-- ==== Sys2Proof/Machine/Operands.lean ====
section
/-! DEFINITION. The operands of HASH and SHAKE (rule R92), their checks in the order of rule R273, and the parameters they
fix (rule R204). -/

namespace Sys2Proof.Machine

/-- The validated parameters of one HASH or SHAKE (rule R204). -/
structure SpongeCall where
  /-- c, in bits. -/
  capacity : Nat
  /-- d, in bits. -/
  outBits : Nat
  /-- The domain-separation suffix. -/
  suffix : Byte
  /-- RAW: raw output (true) or lowercase hexadecimal (false). -/
  raw : Bool
deriving DecidableEq, Repr

/-- "r = 200 − c/8 bytes" (rule R160). -/
def rateOf (capacity : Nat) : Nat := 200 - capacity / 8

/-- nd = d/8, the digest length in bytes (rule R204). -/
def SpongeCall.digestBytes (p : SpongeCall) : Nat := p.outBits / 8

/-- "`nout = nd` in raw mode or `nout = 2·nd` in hex mode" (rule R204). -/
def SpongeCall.outBytes (p : SpongeCall) : Nat := if p.raw then p.digestBytes else 2 * p.digestBytes

/-- The legal values of md_len (rule R206), compared as whole numbers (rule R92). -/
def mdLenLegal (size : Word) : Bool :=
  size.toNat == 224 || size.toNat == 256 || size.toNat == 384 || size.toNat == 512

/-- The legal values of security_level (rule R211). -/
def securityLevelLegal (size : Word) : Bool := size.toNat == 128 || size.toNat == 256

/-- "a positive multiple of 8" (rule R212). -/
def outLenLegal (outLen : Word) : Bool := outLen.toNat != 0 && outLen.toNat % 8 == 0

/-- The buffer checks of rule R207, shared by HASH and SHAKE, in this order. -/
def bufferChecks (p : SpongeCall) (s : State) : Except ErrCode SpongeCall :=
  if s.cfg.ibufBytes < s.inLen.toNat then .error .inLenTooLarge
  else if s.cfg.obufBytes < p.outBytes then .error .outTooLarge
  else .ok p

/-- The parameters of a HASH: c = 2·md_len, d = md_len, suffix 0x01 (rules R206, R214). -/
def hashCall (raw : Bool) (s : State) : SpongeCall :=
  { capacity := 2 * s.size.toNat, outBits := s.size.toNat, suffix := 0x01, raw := raw }

/-- The parameters of a SHAKE: c = 2·security_level, d = OUT_LEN, suffix 0x1F (rules R211, R212, R214). -/
def shakeCall (raw : Bool) (s : State) : SpongeCall :=
  { capacity := 2 * s.size.toNat, outBits := s.outLen.toNat, suffix := 0x1F, raw := raw }

/-- The checks of HASH, first failing check first (rules R210, R273). -/
def hashOperands (raw : Bool) (s : State) : Except ErrCode SpongeCall :=
  if mdLenLegal s.size then bufferChecks (hashCall raw s) s
  else .error .unsupportedMdLen

/-- The checks of SHAKE, first failing check first (rules R215, R273). -/
def shakeOperands (raw : Bool) (s : State) : Except ErrCode SpongeCall :=
  if securityLevelLegal s.size then
    if outLenLegal s.outLen then bufferChecks (shakeCall raw s) s
    else .error .badOutLen
  else .error .unsupportedSecurityLevel

end Sys2Proof.Machine
end

