-- ==== Sys2Proof/Machine/Sponge.lean ====
section
/-! DEFINITION. The sponge (42_sponge.md): byte/lane conversion, absorb, pad, squeeze, and the output forms of rule R209. -/

namespace Sys2Proof.Machine

/-- LE64 (rule R161). -/
def le64 (b : List Byte) : Lane := fromLE 64 b

/-- LEBYTES (rule R162). -/
def leBytes (v : Lane) : List Byte := toLE 8 v

/-- Bytes 8i .. 8i+7 of a block. -/
def blockWord (B : List Byte) (i : Nat) : List Byte := (B.drop (8 * i)).take 8

/-- AbsorbBlock for a block B of r bytes (rule R165); lanes r/8 .. 24 keep their values. -/
def absorbBlock (r : Nat) (S : Lanes) (B : List Byte) : Lanes :=
  Vector.ofFn fun i => if i.val < r / 8 then S[i] ^^^ le64 (blockWord B i) else S[i]

/-- The absorb loop of rule R166 on the rest of the message. The first argument bounds the loop: the message's length is
always enough, since each turn takes r ≥ 1 bytes. Answers the lanes and the tail. -/
def absorbLoop (r : Nat) : Nat → Lanes → List Byte → Lanes × List Byte
  | 0, S, M => (S, M)
  | fuel + 1, S, M =>
    if r ≤ M.length then absorbLoop r fuel (keccakF (absorbBlock r S (M.take r))) (M.drop r)
    else (S, M)

/-- Pad, pad10*1 with the domain suffix (rules R167, R168): both marks are OR-ed in. -/
def padBlock (r : Nat) (suffix : Byte) (tail : List Byte) : List Byte :=
  let P := tail ++ List.replicate (r - tail.length) 0
  (P.modify tail.length (· ||| suffix)).modify (r - 1) (· ||| 0x80)

/-- Lanes 0 .. r/8−1 as bytes, lane 0 first (rule R170). -/
def emitBlock (r : Nat) (S : Lanes) : List Byte := (S.toList.take (r / 8)).flatMap leBytes

/-- The squeeze loop of rule R170, Z being what has been emitted: no permutation follows the block that completes the
output. The first argument bounds the loop: n is enough, since each turn emits at least one byte. -/
def squeezeLoop (r n : Nat) : Nat → Lanes → List Byte → List Byte
  | 0, _, Z => Z
  | fuel + 1, S, Z =>
    if n ≤ (Z ++ emitBlock r S).length then Z ++ emitBlock r S
    else squeezeLoop r n fuel (keccakF S) (Z ++ emitBlock r S)

/-- Squeeze n bytes (rule R170): the emitted bytes cut to exactly n. -/
def squeeze (r n : Nat) (S : Lanes) : List Byte := (squeezeLoop r n n S []).take n

/-- Absorb loop, pad and final absorb from the zero state (rules R164, R166, R167, R169). -/
def absorbAll (r : Nat) (suffix : Byte) (M : List Byte) : Lanes :=
  let (S, tail) := absorbLoop r M.length zeroLanes M
  keccakF (absorbBlock r S (padBlock r suffix tail))

/-- The sponge as one function (rule R172). -/
def sponge (M : List Byte) (capacity outBits : Nat) (suffix : Byte) : List Byte :=
  let r := rateOf capacity
  squeeze r (outBits / 8) (absorbAll r suffix M)

/-- HEXCHAR (rule R213): the ASCII byte of a lowercase hexadecimal digit. -/
def hexChar (v : Nibble) : Byte :=
  if v.toNat < 10 then BitVec.ofNat 8 (0x30 + v.toNat) else BitVec.ofNat 8 (0x61 + (v.toNat - 10))

/-- "two hex chars per byte", the high nibble first (rule R209). -/
def hexByte (b : Byte) : List Byte := [hexChar (b.extractLsb' 4 4), hexChar (b.extractLsb' 0 4)]

/-- The bytes WriteOut writes for the digest D (rule R209). -/
def outputForm (raw : Bool) (D : List Byte) : List Byte := if raw then D else D.flatMap hexByte

end Sys2Proof.Machine
end

