-- ==== Sys2Proof/Machine/Hash.lean ====
section
/-! DEFINITION. The controllers HASH and SHAKE (43_dispatch.md): each is the completion step of its command (rule R201). -/

namespace Sys2Proof.Machine

/-- The message IBUF[0 .. IN_LEN−1] as the block reads it (rule R73), and the number of draws afterwards (rule R307). -/
def readMessage (s : State) : List Byte × Nat := s.mem.readBytes ibufBase s.inLen.toNat s.draws

/-- The digest of the validated call over the message. -/
def digest (p : SpongeCall) (s : State) : List Byte :=
  sponge (readMessage s).1 p.capacity p.outBits p.suffix

/-- The effects of a HASH or SHAKE that passed its checks (rules R208 to R210, R215): WriteOut, then S ← 0. -/
def spongeEffect (p : SpongeCall) (s : State) : State :=
  { s with
    lanes := zeroLanes
    mem := s.mem.writeBytes obufBase (outputForm p.raw (digest p s))
    outCount := BitVec.ofNat 32 p.outBytes
    draws := (readMessage s).2 }

/-- What HASH and SHAKE do once their operands are checked. "A command that raises an error changes only STATUS … and
OUT_COUNT" (rule R203). -/
def runSponge (checked : Except ErrCode SpongeCall) (s : State) : Host.Outcome State Fault Refusal :=
  match checked with
  | .error e => raise e s
  | .ok p => .next (complete .ok (spongeEffect p s))

/-- HASH (rule R210). -/
def execHash (raw : Bool) (s : State) : Host.Outcome State Fault Refusal :=
  runSponge (hashOperands raw s) s

/-- SHAKE (rule R215). -/
def execShake (raw : Bool) (s : State) : Host.Outcome State Fault Refusal :=
  runSponge (shakeOperands raw s) s

end Sys2Proof.Machine
end

