-- ==== Sys2Proof/Machine/StateCommands.lean ====
section
/-! DEFINITION. The state commands PERMUTE and CLEAR, and ILLEGAL (43_dispatch.md, section 4). -/

namespace Sys2Proof.Machine

/-- PERMUTE (rule R220): `S <- KeccakF(S)`; RAW is ignored; OUT_COUNT and the buffers are unchanged. -/
def execPermute (_raw : Bool) (s : State) : Host.Outcome State Fault Refusal :=
  .next (complete .ok { s with lanes := keccakF s.lanes })

/-- CLEAR (rule R222): every lane becomes 0; RAW is ignored; OUT_COUNT and the buffers are unchanged. -/
def execClear (_raw : Bool) (s : State) : Host.Outcome State Fault Refusal :=
  .next (complete .ok { s with lanes := zeroLanes })

/-- ILLEGAL (rule R223): "raise Error(6)". -/
def execIllegal (s : State) : Host.Outcome State Fault Refusal := raise .illegalCmd s

end Sys2Proof.Machine
end

