-- ==== Sys2Proof/Machine/Dispatch.lean ====
section
/-! DEFINITION. Execute's dispatch on the decoded command (rule R202): one arm per constructor of Instr. -/

namespace Sys2Proof.Machine

/-- The completion step of a command (rules R201, R202). -/
def exec (i : Instr) (s : State) : Host.Outcome State Fault Refusal :=
  match i with
  | .hash raw => Sys2Proof.Machine.execHash raw s
  | .shake raw => Sys2Proof.Machine.execShake raw s
  | .permute raw => Sys2Proof.Machine.execPermute raw s
  | .clear raw => Sys2Proof.Machine.execClear raw s

end Sys2Proof.Machine
end

