-- ==== Sys2Proof/Machine/Turn.lean ====
section
/-! DEFINITION. The block's turn, and what one event of the execution does (rules R75, R201). -/

namespace Sys2Proof.Machine

/-- Execute on what the command word decodes to (rule R202). -/
def execDecoded (d : Decoded) (s : State) : Host.Outcome State Fault Refusal :=
  match d with
  | .instr i => exec i s
  | .illegal _ => execIllegal s

/-- The block's turn. "While BUSY = 1, the block has exactly one enabled step, its completion" (rule R201); idle it holds its
state (rule R286), and so it does while `rst` is high (rule R300; DEDUCED, assumption 6). -/
def blockTurn (s : State) : Host.Outcome State Fault Refusal :=
  if s.rst then .next s
  else
    match s.seq with
    | .idle => .next s
    | .running w => execDecoded (decode w) s

/-- One event of the execution. -/
def runEvent (e : Event) (s : State) : Host.Outcome State Fault Refusal :=
  match e with
  | .host t => .next (hostTx t s)
  | .block => blockTurn s
  | .reset level => .next (resetEdge level s)

/-- The agenda's next event, on the state that has it taken off; with an empty agenda the block has its turn, so that an
accepted command cannot be postponed forever (rule R312; DESIGN CHOICE, assumption 2). -/
def runAgenda (s : State) : Host.Outcome State Fault Refusal :=
  match s.agenda with
  | [] => blockTurn s
  | e :: rest => runEvent e { s with agenda := rest }

/-- The acceptance of w, not in reset, with the block's turn next. -/
def acceptNow (w : Word) (s : State) : State :=
  { accept w s with rst := false, agenda := .block :: s.agenda }

end Sys2Proof.Machine
end

