-- ==== Sys2Proof/Machine/Step.lean ====
section
/-! DEFINITION. The step function, and how the host places an instruction before it. -/

namespace Sys2Proof.Machine

/-- One step of the machine. -/
def step (s : State) : Host.Outcome State Fault Refusal := runAgenda s

/-- s with the instruction word w as the accepted command and the block's turn next. The block has no program counter (rule
R25); a command is what a write of CMD hands it (rule R200; DESIGN CHOICE, assumption 11). -/
def State.withFetchWord (s : State) (nbits w : Nat) : State :=
  acceptNow (BitVec.ofNat 32 (w % 2 ^ nbits)) s

end Sys2Proof.Machine
end

