-- ==== Sys2Proof/Machine/Datapath.lean ====
section
/-! DEFINITION. Datapaths other than 64-bit lanes (44_limb_fallback.md, rule R37): what such a datapath does, when it is
faithful to the 64-bit rules (rule R250), and the two forms the spec describes (rules R251, R252, R254). -/

namespace Sys2Proof.Machine

/-- The operations rule R250 names, on an internal form α of one lane: "XOR, AND, NOT, rotation, little-endian load/store". -/
structure Datapath (α : Type) where
  xor : α → α → α
  and : α → α → α
  not : α → α
  /-- Rotation left by 0 ≤ n ≤ 63. -/
  rotl : α → Nat → α
  /-- Load of 8 bytes, least significant first. -/
  load : List Byte → α
  /-- Store as 8 bytes, least significant first. -/
  store : α → List Byte
  /-- The form of a constant lane. -/
  ofLane : Lane → α
  /-- The lane a form stands for. -/
  toLane : α → Lane

/-- Every operation "must produce bit-identical results to the 64-bit implementation" (rule R250). -/
structure Datapath.Faithful {α : Type} (d : Datapath α) : Prop where
  ofLane : ∀ v, d.toLane (d.ofLane v) = v
  xor : ∀ a b, d.toLane (d.xor a b) = d.toLane a ^^^ d.toLane b
  and : ∀ a b, d.toLane (d.and a b) = d.toLane a &&& d.toLane b
  not : ∀ a, d.toLane (d.not a) = ~~~ d.toLane a
  rotl : ∀ a n, n < 64 → d.toLane (d.rotl a n) = rotl64 (d.toLane a) n
  load : ∀ b : List Byte, b.length = 8 → d.toLane (d.load b) = le64 b
  store : ∀ a, d.store a = leBytes (d.toLane a)

/-- The lane state in the form α. -/
abbrev Forms (α : Type) := Vector α 25

/-- The 64-bit lanes a state in the form α stands for. -/
def Datapath.lanes {α : Type} (d : Datapath α) (S : Forms α) : Lanes := S.map d.toLane

/-- θ (rule R126) on the datapath. -/
def Datapath.theta {α : Type} (d : Datapath α) (S : Forms α) : Forms α :=
  let C : Vector α 5 := Vector.ofFn fun x =>
    d.xor (d.xor (d.xor (d.xor S[laneIdx x 0] S[laneIdx x 1]) S[laneIdx x 2]) S[laneIdx x 3]) S[laneIdx x 4]
  let D : Vector α 5 := Vector.ofFn fun x => d.xor C[x - 1] (d.rotl C[x + 1] 1)
  Vector.ofFn fun i => d.xor S[i] D[laneX i]

/-- One step of ρ + π (rule R128) on the datapath. -/
def Datapath.rhoPiStep {α : Type} (d : Datapath α) (st : Forms α × α) (i : Fin 24) : Forms α × α :=
  (st.1.set piln[i] (d.rotl st.2 rotc[i]), st.1[piln[i]])

/-- ρ + π (rule R128) on the datapath. -/
def Datapath.rhoPi {α : Type} (d : Datapath α) (S : Forms α) : Forms α :=
  ((List.finRange 24).foldl d.rhoPiStep (S, S[(1 : Fin 25)])).1

/-- χ (rule R130) on the datapath. -/
def Datapath.chi {α : Type} (d : Datapath α) (S : Forms α) : Forms α :=
  Vector.ofFn fun i =>
    d.xor S[i] (d.and (d.not S[laneIdx (laneX i + 1) (laneY i)]) S[laneIdx (laneX i + 2) (laneY i)])

/-- ι (rule R131) on the datapath. -/
def Datapath.iota {α : Type} (d : Datapath α) (S : Forms α) (k : Fin 24) : Forms α :=
  S.set 0 (d.xor S[(0 : Fin 25)] (d.ofLane roundConstants[k]))

/-- Round(S, k) (rule R132) on the datapath. -/
def Datapath.keccakRound {α : Type} (d : Datapath α) (S : Forms α) (k : Fin 24) : Forms α :=
  d.iota (d.chi (d.rhoPi (d.theta S))) k

/-- Keccak-f[1600] (rule R133) on the datapath. -/
def Datapath.keccakF {α : Type} (d : Datapath α) (S : Forms α) : Forms α :=
  (List.finRange 24).foldl d.keccakRound S

/-- AbsorbBlock (rule R165) on the datapath. -/
def Datapath.absorbBlock {α : Type} (d : Datapath α) (r : Nat) (S : Forms α) (B : List Byte) : Forms α :=
  Vector.ofFn fun i => if i.val < r / 8 then d.xor S[i] (d.load (blockWord B i)) else S[i]

/-- The absorb loop (rule R166) on the datapath. -/
def Datapath.absorbLoop {α : Type} (d : Datapath α) (r : Nat) : Nat → Forms α → List Byte → Forms α × List Byte
  | 0, S, M => (S, M)
  | fuel + 1, S, M =>
    if r ≤ M.length then d.absorbLoop r fuel (d.keccakF (d.absorbBlock r S (M.take r))) (M.drop r)
    else (S, M)

/-- The bytes of the rate lanes (rule R170) on the datapath. -/
def Datapath.emitBlock {α : Type} (d : Datapath α) (r : Nat) (S : Forms α) : List Byte :=
  (S.toList.take (r / 8)).flatMap d.store

/-- The squeeze loop (rule R170) on the datapath. -/
def Datapath.squeezeLoop {α : Type} (d : Datapath α) (r n : Nat) : Nat → Forms α → List Byte → List Byte
  | 0, _, Z => Z
  | fuel + 1, S, Z =>
    if n ≤ (Z ++ d.emitBlock r S).length then Z ++ d.emitBlock r S
    else d.squeezeLoop r n fuel (d.keccakF S) (Z ++ d.emitBlock r S)

/-- The sponge (rule R172) on the datapath; the zero state is the form of zero lanes. -/
def Datapath.sponge {α : Type} (d : Datapath α) (M : List Byte) (capacity outBits : Nat) (suffix : Byte) : List Byte :=
  let r := rateOf capacity
  let A := d.absorbLoop r M.length (Vector.replicate 25 (d.ofLane 0)) M
  let S := d.keccakF (d.absorbBlock r A.1 (padBlock r suffix A.2))
  (d.squeezeLoop r (outBits / 8) (outBits / 8) S []).take (outBits / 8)

/-- Four 16-bit limbs, by the document's names (rule R251). -/
structure Limbs where
  /-- Bits 48..63. -/
  l0 : Limb
  /-- Bits 32..47. -/
  l1 : Limb
  /-- Bits 16..31. -/
  l2 : Limb
  /-- Bits 0..15. -/
  l3 : Limb
deriving DecidableEq, Repr

/-- "lane v = (L0 << 48) | (L1 << 32) | (L2 << 16) | L3" (rule R251). -/
def Limbs.pack (v : Limbs) : Lane :=
  (v.l0.setWidth 64 <<< 48) ||| (v.l1.setWidth 64 <<< 32) ||| (v.l2.setWidth 64 <<< 16) ||| v.l3.setWidth 64

/-- The limbs of a lane. -/
def Limbs.unpack (v : Lane) : Limbs :=
  ⟨v.extractLsb' 48 16, v.extractLsb' 32 16, v.extractLsb' 16 16, v.extractLsb' 0 16⟩

/-- Limb m by significance, m = 0 for bits 15..0: "limb m is L(3−m)" (rule R252). -/
def Limbs.bySignificance (v : Limbs) (m : Fin 4) : Limb := #v[v.l3, v.l2, v.l1, v.l0][m]

/-- Limb m of the rotation by n = 16q + s (rule R252); the index is modulo 4, and 16-bit shifts drop what leaves the limb. -/
def Limbs.rotatedLimb (v : Limbs) (n : Nat) (m : Fin 4) : Limb :=
  let q := Fin.ofNat 4 (n / 16)
  let s := n % 16
  if s = 0 then v.bySignificance (m - q)
  else (v.bySignificance (m - q) <<< s) ||| (v.bySignificance (m - q - 1) >>> (16 - s))

/-- The limb rotation of rule R252, 0 ≤ n ≤ 63. -/
def Limbs.rotl (v : Limbs) (n : Nat) : Limbs :=
  ⟨v.rotatedLimb n 3, v.rotatedLimb n 2, v.rotatedLimb n 1, v.rotatedLimb n 0⟩

/-- The limb-form datapath (rules R250 to R252); byte 2m of a load is the low byte of limb m. -/
def limbs16 : Datapath Limbs where
  xor a b := ⟨a.l0 ^^^ b.l0, a.l1 ^^^ b.l1, a.l2 ^^^ b.l2, a.l3 ^^^ b.l3⟩
  and a b := ⟨a.l0 &&& b.l0, a.l1 &&& b.l1, a.l2 &&& b.l2, a.l3 &&& b.l3⟩
  not a := ⟨~~~ a.l0, ~~~ a.l1, ~~~ a.l2, ~~~ a.l3⟩
  rotl := Limbs.rotl
  load b :=
    ⟨fromLE 16 ((b.drop 6).take 2), fromLE 16 ((b.drop 4).take 2), fromLE 16 ((b.drop 2).take 2), fromLE 16 (b.take 2)⟩
  store a := toLE 2 a.l3 ++ toLE 2 a.l2 ++ toLE 2 a.l1 ++ toLE 2 a.l0
  ofLane := Limbs.unpack
  toLane := Limbs.pack

/-- A lane "as a two-element array of 32-bit halves" (rule R254). -/
structure Halves where
  /-- Element [0], the high half. -/
  hi : Half
  /-- Element [1], the low half. -/
  lo : Half
deriving DecidableEq, Repr

/-- Rotation of a lane held as halves, DEDUCED from the 64-bit rule R124 (assumption 12): by 32 the halves change places, and a shift by
0 < s < 32 carries the high bits of one half into the other. -/
def Halves.rotl (v : Halves) (n : Nat) : Halves :=
  let w : Halves := if n / 32 % 2 = 0 then v else ⟨v.lo, v.hi⟩
  let s := n % 32
  if s = 0 then w
  else ⟨(w.hi <<< s) ||| (w.lo >>> (32 - s)), (w.lo <<< s) ||| (w.hi >>> (32 - s))⟩

/-- The half-lane datapath (rule R254): "the low-address 32-bit word is the low half". -/
def halves32 : Datapath Halves where
  xor a b := ⟨a.hi ^^^ b.hi, a.lo ^^^ b.lo⟩
  and a b := ⟨a.hi &&& b.hi, a.lo &&& b.lo⟩
  not a := ⟨~~~ a.hi, ~~~ a.lo⟩
  rotl := Halves.rotl
  load b := ⟨fromLE 32 ((b.drop 4).take 4), fromLE 32 (b.take 4)⟩
  store a := toLE 4 a.lo ++ toLE 4 a.hi
  ofLane v := ⟨v.extractLsb' 32 32, v.extractLsb' 0 32⟩
  toLane a := a.hi ++ a.lo

end Sys2Proof.Machine
end

