-- ==== Sys2Proof/Machine/Script.lean ====
section
/-! DEFINITION. The host agent and its script notation (rules R14, R97 to R99): statements, the command mnemonics, the
pseudo-instructions, and a host that performs them on the block, interleaved with the block's turns (rule R75; DESIGN CHOICE,
assumption 15). -/

namespace Sys2Proof.Machine

/-- A statement of the notation (rule R97); host variables and labels are numbered. -/
inductive Stmt where
  /-- `W8`/`W16`/`W32 a, v`. -/
  | write (n : Size) (a : Addr) (v : Word)
  /-- `R8`/`R16`/`R32 a -> t`. -/
  | read (n : Size) (a : Addr) (t : Nat)
  /-- `label:`. -/
  | label (l : Nat)
  /-- `BSET t, b, label`. -/
  | bset (t b l : Nat)
  /-- `EXPECT t == v`. -/
  | expect (t : Nat) (v : Word)
deriving DecidableEq, Repr

/-- A command mnemonic (rule R98): one write of its word to CMD. -/
def command (w : Word) : Stmt := .write .four 0x0000 w

/-- `HASH.hex`. -/
def cmdHashHex : Stmt := command 0x00000001
/-- `HASH.raw`. -/
def cmdHashRaw : Stmt := command 0x00000011
/-- `SHAKE.hex`. -/
def cmdShakeHex : Stmt := command 0x00000002
/-- `SHAKE.raw`. -/
def cmdShakeRaw : Stmt := command 0x00000012
/-- `PERMUTE`. -/
def cmdPermute : Stmt := command 0x00000003
/-- `CLEAR`. -/
def cmdClear : Stmt := command 0x00000004

/-- The byte writes of `LOADMSG`, from address a on. Past 0xFFFF, which rule R99 leaves open, the address wraps modulo 2^16
(DESIGN CHOICE, assumption 15). -/
def loadBytes : Nat → List Byte → List Stmt
  | _, [] => []
  | a, b :: bs => .write .one (BitVec.ofNat 16 a) (b.setWidth 32) :: loadBytes (a + 1) bs

/-- `LOADMSG "s"` (rule R99): "no character encoding is applied". A length of 2^32 or more, which the rule
leaves open, is written modulo 2^32 (DESIGN CHOICE, assumption 15). -/
def loadMsg (s : List Byte) : List Stmt :=
  loadBytes 0x4000 s ++ [.write .four 0x0008 (BitVec.ofNat 32 s.length)]

/-- `SETSIZE n`. -/
def setSize (n : Word) : Stmt := .write .four 0x000C n

/-- `SETOUT n`. -/
def setOut (n : Word) : Stmt := .write .four 0x0010 n

/-- `WAIT`: poll STATUS into the host variable t until BUSY = 0; l is the label used, which rule R99 always
writes 1: the caller numbers it, so that two WAITs can have two labels (DESIGN CHOICE, assumption 15). -/
def wait (l t : Nat) : List Stmt := [.label l, .read .four 0x0004 t, .bset t 0 l]

/-- `HASHN n, raw`. -/
def hashN (n : Word) (raw : Bool) (l t : Nat) : List Stmt :=
  setSize n :: (if raw then cmdHashRaw else cmdHashHex) :: wait l t

/-- `SHAKEN s, n, raw`. -/
def shakeN (sec n : Word) (raw : Bool) (l t : Nat) : List Stmt :=
  setSize sec :: setOut n :: (if raw then cmdShakeRaw else cmdShakeHex) :: wait l t

/-- A host running a script: the program, the next statement's place, the host variables, and whether every EXPECT held. -/
structure ScriptHost where
  prog : List Stmt
  at_ : Nat
  vars : List (Nat × Word)
  met : Bool
deriving DecidableEq, Repr

/-- The place of a label in a program, or the program's end; of a label that stands more than once, its first place (DESIGN CHOICE,
assumption 15). -/
def labelAt (l : Nat) (prog : List Stmt) : Nat := prog.findIdx fun st => st == .label l

/-- The host performs its next statement; `BSET` and `EXPECT` "are not block operations" (rule R97). After an EXPECT that fails the
host goes on with the next statement, and `met` records the failure (DESIGN CHOICE, assumption 15). -/
def hostStatement (h : ScriptHost) (s : State) : ScriptHost × State :=
  match h.prog[h.at_]? with
  | none => (h, s)
  | some (.write n a v) => ({ h with at_ := h.at_ + 1 }, hostTx (.write a n v) s)
  | some (.read n a t) =>
    let s' := hostTx (.read a n) s
    ({ h with at_ := h.at_ + 1, vars := (t, s'.rdata) :: h.vars }, s')
  | some (.label _) => ({ h with at_ := h.at_ + 1 }, s)
  | some (.bset t b l) =>
    if ((h.vars.lookup t).map fun v => v.getLsbD b) = some true then ({ h with at_ := labelAt l h.prog }, s)
    else ({ h with at_ := h.at_ + 1 }, s)
  | some (.expect t v) => ({ h with at_ := h.at_ + 1, met := h.met && (h.vars.lookup t == some v) }, s)

/-- The two agents interleaved (rule R75): true gives the block its turn, false lets the host perform its next statement. -/
def interleave : List Bool → ScriptHost → State → ScriptHost × State
  | [], h, s => (h, s)
  | true :: rest, h, s =>
    match blockTurn s with
    | .next s' => interleave rest h s'
    | .fault _ => (h, s)
    | .refused _ => (h, s)
  | false :: rest, h, s =>
    let r := hostStatement h s
    interleave rest r.1 r.2

end Sys2Proof.Machine
end

