-- ==== Sys2Proof/Machine/Sequencing.lean ====
section
/-! DEFINITION. The internal sequencer (rules R25, R38, R40): the phases and the hidden state of one running command, one
round of the permutation or one move of data at a time. Rule R15: it is not architectural state; rule R40 lets a model treat a
command as one completion step, and exec does. Here the hidden machine stands beside it, to be compared with it (DESIGN CHOICE,
assumption 10). -/

namespace Sys2Proof.Machine

/-- "the phases IDLE, ABSORB, PAD, SQUEEZE, PERMUTE_ONLY and WRITEBACK" (rule R40). -/
inductive Phase where
  | idle
  | absorb
  | pad
  | squeeze
  | permuteOnly
  | writeback
deriving DecidableEq, Repr

/-- The hidden state of a running command (rule R38). The θ parities, the ρ+π carry and the χ temporaries live inside one
round, so they are the local values of Keccak.lean's functions. -/
structure Hidden where
  phase : Phase
  /-- The validated parameters (rule R204). -/
  call : SpongeCall
  /-- The message being absorbed, as read from IBUF. -/
  message : List Byte
  /-- The lanes being worked on. -/
  work : Lanes
  /-- The round index of the running permutation, 0..23; 24 when none runs. -/
  round : Nat
  /-- The absorb cursor, in bytes into the message (rule R166). -/
  pos : Nat
  /-- The padded final block (rule R167). -/
  block : List Byte
  /-- The bytes squeezed so far; their count is the count of rule R38 (rule R170). -/
  out : List Byte
  /-- How many permutations have been completed (rule R314); the model's own counter. -/
  perms : Nat
deriving DecidableEq, Repr

/-- The hidden state with which a HASH or SHAKE starts, its checks passed: lanes zero, cursor 0 (rules R164, R166). -/
def Hidden.startSponge (p : SpongeCall) (message : List Byte) : Hidden :=
  { phase := .absorb, call := p, message := message, work := zeroLanes, round := 24, pos := 0, block := [], out := [], perms := 0 }

/-- The hidden state with which a PERMUTE starts on the lanes S (rule R220); the fields it does not use are empty. -/
def Hidden.startPermute (S : Lanes) : Hidden :=
  { phase := .permuteOnly, call := ⟨0, 0, 0, false⟩, message := [], work := S, round := 0, pos := 0, block := [], out := [],
    perms := 0 }

/-- The next round of the running permutation, at round index k (rule R132). -/
def Hidden.nextRound (h : Hidden) (k : Fin 24) : Hidden :=
  { h with work := keccakRound h.work k, round := k.val + 1, perms := if k.val = 23 then h.perms + 1 else h.perms }

/-- The move between permutations, by phase (rules R166, R167, R169, R170). -/
def Hidden.nextMove (h : Hidden) : Hidden :=
  let r := rateOf h.call.capacity
  match h.phase with
  | .absorb =>
    if r ≤ h.message.length - h.pos then
      { h with work := absorbBlock r h.work ((h.message.drop h.pos).take r), round := 0, pos := h.pos + r }
    else { h with phase := .pad, block := padBlock r h.call.suffix (h.message.drop h.pos) }
  | .pad => { h with work := absorbBlock r h.work h.block, round := 0, phase := .squeeze }
  | .squeeze =>
    let Z := h.out ++ emitBlock r h.work
    if h.call.digestBytes ≤ Z.length then { h with out := Z.take h.call.digestBytes, phase := .writeback }
    else { h with out := Z, round := 0 }
  | .permuteOnly => { h with phase := .writeback }
  | .writeback => h
  | .idle => h

/-- One step of the sequencer. -/
def Hidden.next (h : Hidden) : Hidden :=
  if k : h.round < 24 then h.nextRound ⟨h.round, k⟩ else h.nextMove

/-- n steps of the sequencer. -/
def Hidden.run : Nat → Hidden → Hidden
  | 0, h => h
  | n + 1, h => Hidden.run n h.next

/-- The number of permutations of a HASH or SHAKE over L bytes: floor(L/r) + ceil(nd/r) (rules R172, R314). -/
def SpongeCall.permutations (p : SpongeCall) (L : Nat) : Nat :=
  let r := rateOf p.capacity
  L / r + (p.digestBytes + r - 1) / r

end Sys2Proof.Machine
end

