-- ==== Sys2Proof/Safety.lean ====
section
/-! DEFINITION. What holds of the block at every moment of every execution, in the terms the statements use. -/

namespace Sys2Proof.Machine

/-- Every listed byte lies in IBUF or OBUF (rules R60, R64). -/
def Memory.inBuffers (c : Config) (m : Memory) : Bool := m.all fun p => inIbuf c p.1 || inObuf c p.1

/-- The invariant of the block. -/
structure State.Inv (s : State) : Prop where
  /-- The parameters meet rule R8. -/
  cfg : s.cfg.legal = true
  /-- The buffer memory is in canonical form. -/
  memWf : s.mem.wf
  /-- It lists only buffer bytes. -/
  memIn : s.mem.inBuffers s.cfg = true
  /-- While a command runs, DONE = 0 and ERRCODE = 0 (rules R28, R200). -/
  running : s.busy = true → s.done = false ∧ s.err = .ok
  /-- An error is reported only with DONE = 1 and OUT_COUNT = 0 (rules R28, R32, R201). -/
  failed : s.err ≠ .ok → s.done = true ∧ s.outCount = 0
  /-- No result is longer than OBUF (rules R32, R207). -/
  count : s.outCount.toNat ≤ s.cfg.obufBytes
  /-- While `rst` is high the block holds the reset values (rules R41, R300, R302). -/
  inReset : s.rst = true →
    s = { State.resetOf s.cfg with rst := true, rdata := s.rdata, agenda := s.agenda, draws := s.draws }

/-- A step goes on: it answers a next state. -/
def goesOn (o : Host.Outcome State Fault Refusal) : Prop := ∃ t, o = .next t

/-- No event of the list raises the reset pin. -/
def noReset (l : List Event) : Bool := l.all fun e => e != .reset true

end Sys2Proof.Machine
end

