-- ==== Sys2Proof/Certificates/Slice0/Obligations.lean ====
section
/-! DEFINITION. The statements about the block, for the provers. -/

open Sys2Proof Sys2Proof.Machine

/-! Encoding and the step -/

/-- Rules R91, R93: the words of the opcode map, RAW ignored by PERMUTE and CLEAR but kept as a bit (the
model's choice, assumption 8), and some reserved words. -/
def Obligations.OpcodeMapWordsDecode : Prop :=
  decode 0x00000001 = .instr (.hash false) ∧ decode 0x00000011 = .instr (.hash true) ∧
  decode 0x00000002 = .instr (.shake false) ∧ decode 0x00000012 = .instr (.shake true) ∧
  decode 0x00000003 = .instr (.permute false) ∧ decode 0x00000013 = .instr (.permute true) ∧
  decode 0x00000004 = .instr (.clear false) ∧ decode 0x00000014 = .instr (.clear true) ∧
  decode 0x00000000 = .illegal .reservedOp ∧ decode 0x00000005 = .illegal .reservedOp ∧
  decode 0x00000021 = .illegal .reservedBits ∧ decode 0x80000003 = .illegal .reservedBits

/-- Rules R90, R91: a word decodes to an instruction exactly when it is that instruction's encoding, over all 2^32 words. That one
instruction has one word rests on PERMUTE and CLEAR keeping their RAW bit, the model's choice (assumption 8). -/
def Obligations.DecodeExactlyTheEncodedWord : Prop :=
  ∀ (w : Word) (i : Instr), decode w = .instr i ↔ w = encode i

/-- Rules R94, R203, R223: OP = 0, OP = 5 to 15 and any word with a 1 in bits [31:5] complete with ERRCODE 6, changing nothing
but STATUS and OUT_COUNT; no other word is reserved. That the block has its turn when the agenda is empty or begins with it is the
model's choice (assumption 2). -/
def Obligations.ReservedWordsCompleteAsIllegal : Prop :=
  (∀ (w : Word) (s : State), (w.toNat % 16 = 0 ∨ 5 ≤ w.toNat % 16 ∨ 32 ≤ w.toNat) →
    s.rst = false → s.seq = .running w →
    let t : State := { s with seq := .idle, done := true, err := .illegalCmd, outCount := 0 }
    (s.agenda = [] → step s = .next t) ∧
    (∀ rest, s.agenda = .block :: rest → step s = .next { t with agenda := rest })) ∧
  (∀ w : Word, 1 ≤ w.toNat % 16 → w.toNat % 16 ≤ 4 → w.toNat < 32 → ∃ i, decode w = .instr i)

/-- Rules R66, R75, R201, R202, R286, R300: a host transaction that is the agenda's next event is performed whole; the block's turn with a running command is exec of what its word decodes to, whether the turn is
the agenda's next event or the agenda is empty; the turn of an idle block, or of one in reset, changes nothing; and a placed word
is run by the very next step. The agenda, the hold in reset and the placing are the model's choices (assumptions 2, 6 and 11). -/
def Obligations.StepRunsTheDecodedCommand : Prop :=
  (∀ (s : State) (w : Word) (i : Instr), s.rst = false → s.seq = .running w → decode w = .instr i →
    (s.agenda = [] → step s = exec i s) ∧
    (∀ rest, s.agenda = .block :: rest → step s = exec i { s with agenda := rest })) ∧
  (∀ s : State, s.busy = false ∨ s.rst = true →
    (s.agenda = [] → step s = .next s) ∧
    (∀ rest, s.agenda = .block :: rest → step s = .next { s with agenda := rest })) ∧
  (∀ (s : State) (tx : Tx) (rest : List Event), s.agenda = .host tx :: rest →
    step s = .next (hostTx tx { s with agenda := rest })) ∧
  (∀ (s : State) (w : Word) (i : Instr), decode w = .instr i →
    step (s.withFetchWord 32 w.toNat) =
      exec i { s with seq := .running w, done := false, err := .ok, rst := false })

/-! The permutation -/

/-- Rule R124: "bit j of the result is bit (j − m) mod 64 of v", for every amount n, m = n mod 64. -/
def Obligations.RotationMovesEachBit : Prop :=
  ∀ (v : Lane) (n j : Nat), j < 64 → (rotl64 v n).getLsbD j = v.getLsbD ((j + 64 - n % 64) % 64)

/-- Rule R126: θ by lanes (x, y), with its corner cases on the all-zero and the all-ones state. -/
def Obligations.ThetaXorsColumnParities : Prop :=
  (∀ (S : Lanes) (x y : Fin 5),
    let C : Fin 5 → Lane := fun x =>
      S[laneIdx x 0] ^^^ S[laneIdx x 1] ^^^ S[laneIdx x 2] ^^^ S[laneIdx x 3] ^^^ S[laneIdx x 4]
    (theta S)[laneIdx x y] = S[laneIdx x y] ^^^ (C (x - 1) ^^^ rotl64 (C (x + 1)) 1)) ∧
  theta (Vector.replicate 25 0) = Vector.replicate 25 0 ∧
  theta (Vector.replicate 25 0xFFFFFFFFFFFFFFFF) = Vector.replicate 25 0xFFFFFFFFFFFFFFFF

/-- Rule R129: the loop of rule R128 gives the closed form: step i moves lane src(i) to piln[i] rotated by rotc[i], lane 0
is untouched, and lane (x, y) goes to (y, 2x + 3y) rotated by the entry of the rule's table by source lane, here row after row. -/
def Obligations.RhoPiMovesEachLane : Prop :=
  ∀ S : Lanes,
    (∀ i : Fin 24, (rhoPi S)[piln[i]] =
      rotl64 (if i = 0 then S[(1 : Fin 25)] else S[piln[i - 1]]) rotc[i]) ∧
    (rhoPi S)[(0 : Fin 25)] = S[(0 : Fin 25)] ∧
    (∀ x y : Fin 5,
      let rot : Vector Nat 25 :=
        #v[0, 1, 62, 28, 27, 36, 44, 6, 55, 20, 3, 10, 43, 25, 39, 41, 45, 15, 21, 8, 18, 2, 61, 56, 14]
      (rhoPi S)[laneIdx y (2 * x + 3 * y)] = rotl64 S[laneIdx x y] rot[laneIdx x y])

/-- Rule R130: χ by lanes (x, y), with its corner cases on the all-zero and the all-ones state. -/
def Obligations.ChiMixesEachRow : Prop :=
  (∀ (S : Lanes) (x y : Fin 5),
    (chi S)[laneIdx x y] = S[laneIdx x y] ^^^ (~~~ S[laneIdx (x + 1) y] &&& S[laneIdx (x + 2) y])) ∧
  chi (Vector.replicate 25 0) = Vector.replicate 25 0 ∧
  chi (Vector.replicate 25 0xFFFFFFFFFFFFFFFF) = Vector.replicate 25 0xFFFFFFFFFFFFFFFF

/-- Rule R131: ι XORs RC[k] into lane 0 and changes no other lane. -/
def Obligations.IotaChangesLaneZeroOnly : Prop :=
  ∀ (S : Lanes) (k : Fin 24),
    (iota S k)[(0 : Fin 25)] = S[(0 : Fin 25)] ^^^ roundConstants[k] ∧
    ∀ i : Fin 25, i ≠ 0 → (iota S k)[i] = S[i]

/-- Rules R132, R133: Keccak-f[1600] is the 24 rounds ι ∘ χ ∘ ρπ ∘ θ in order, k = 0 to 23, with the rules' examples on the
zero state. -/
def Obligations.KeccakFRunsTheRoundsInOrder : Prop :=
  (∀ S : Lanes, ∃ T : Nat → Lanes, T 0 = S ∧
    (∀ k : Fin 24, T (k.val + 1) = keccakRound (T k.val) k) ∧ keccakF S = T 24) ∧
  (∀ (S : Lanes) (k : Fin 24), keccakRound S k = iota (chi (rhoPi (theta S))) k) ∧
  keccakRound zeroLanes 0 = zeroLanes.set 0 0x0000000000000001 ∧
  (keccakF zeroLanes)[0] = 0xF1258F7940E1DDE7 ∧ (keccakF zeroLanes)[1] = 0x84D5CCF933C0478A

/-- Rule R134 (from general knowledge, as the rule itself marks it): Keccak-f[1600] maps no two states to one. Each step has
an inverse. For θ: the parity map P(C)[x] = C[x] ^ C[x−1] ^ rotl(C[x+1], 1) applied 64 times is C[x] ^ C[x−1] ^ C[x+1], since
squaring a sum doubles its shifts, and that is invertible on five lanes. -/
def Obligations.KeccakFIsInjective : Prop :=
  ∀ S T : Lanes, keccakF S = keccakF T → S = T

/-- Rule R250: on every datapath faithful to the 64-bit operations, the permutation and the whole sponge give the same bits. -/
def Obligations.FaithfulDatapathsAreBitIdentical : Prop :=
  ∀ (α : Type) (d : Datapath α), d.Faithful →
    (∀ S : Forms α, d.lanes (d.keccakF S) = keccakF (d.lanes S)) ∧
    (∀ (M : List Byte) (capacity outBits : Nat) (suffix : Byte),
      d.sponge M capacity outBits suffix = sponge M capacity outBits suffix)

/-- Rules R251, R252: the limb form packs as stated, and its operations, the rotation formula among them, are faithful. -/
def Obligations.LimbDatapathIsFaithful : Prop :=
  (∀ v : Lane, (Limbs.unpack v).pack = v) ∧ (∀ l : Limbs, Limbs.unpack l.pack = l) ∧ limbs16.Faithful

/-- Rule R254: the half-lane form is faithful too; its rotation is the model's deduction (assumption 12). -/
def Obligations.HalfLaneDatapathIsFaithful : Prop := halves32.Faithful

/-! The sponge -/

/-- Rules R161, R162: LE64 is the stated OR of shifted bytes, LEBYTES is its bytes from the least significant on, and each is
the other's inverse. -/
def Obligations.LaneBytesRoundTrip : Prop :=
  (∀ b0 b1 b2 b3 b4 b5 b6 b7 : Byte, le64 [b0, b1, b2, b3, b4, b5, b6, b7] =
    b0.setWidth 64 ||| (b1.setWidth 64 <<< 8) ||| (b2.setWidth 64 <<< 16) ||| (b3.setWidth 64 <<< 24) |||
      (b4.setWidth 64 <<< 32) ||| (b5.setWidth 64 <<< 40) ||| (b6.setWidth 64 <<< 48) ||| (b7.setWidth 64 <<< 56)) ∧
  (∀ v : Lane, leBytes v = [v.extractLsb' 0 8, v.extractLsb' 8 8, v.extractLsb' 16 8, v.extractLsb' 24 8,
    v.extractLsb' 32 8, v.extractLsb' 40 8, v.extractLsb' 48 8, v.extractLsb' 56 8]) ∧
  (∀ v : Lane, le64 (leBytes v) = v) ∧
  (∀ b : List Byte, b.length = 8 → leBytes (le64 b) = b)

/-- Rule R165: a block of r bytes is XORed into lanes 0 .. r/8−1, bytes 8i .. 8i+7 into lane i; the other lanes keep their
values. -/
def Obligations.AbsorbXorsTheRateLanesOnly : Prop :=
  ∀ (r : Nat) (S : Lanes) (B : List Byte) (i : Fin 25), B.length = r →
    (i.val < r / 8 → (absorbBlock r S B)[i] = S[i] ^^^ le64 ((List.range 8).map fun k => B.getD (8 * i.val + k) 0)) ∧
    (r / 8 ≤ i.val → (absorbBlock r S B)[i] = S[i])

/-- Rules R166, R169, R172: absorbing takes floor(L/r) whole blocks in order, each followed by a permutation, then the
padded tail of L mod r bytes and one more permutation. -/
def Obligations.AbsorbTakesWholeBlocksThenThePad : Prop :=
  ∀ (r : Nat) (suffix : Byte) (M : List Byte), 1 ≤ r →
    let q := M.length / r
    let A := (List.range q).foldl (fun T k => keccakF (absorbBlock r T ((M.drop (k * r)).take r))) zeroLanes
    (M.drop (q * r)).length = M.length % r ∧
    absorbAll r suffix M = keccakF (absorbBlock r A (padBlock r suffix (M.drop (q * r))))

/-- Rules R167, R168: the padded block has r bytes, the tail's, then the suffix OR-ed in at tail_len and 0x80 at r − 1, both
in one byte where the two places meet. -/
def Obligations.PaddedBlockBytes : Prop :=
  ∀ (r : Nat) (suffix : Byte) (tail : List Byte), tail.length < r →
    (padBlock r suffix tail).length = r ∧
    ∀ k, k < r → (padBlock r suffix tail)[k]? = some
      (tail.getD k 0 ||| (if k = tail.length then suffix else 0) ||| (if k = r - 1 then 0x80 else 0))

/-- Rule R174: "The Pad of rule R167 is injective in the tail for a fixed tail_len, r and suffix." -/
def Obligations.PaddingIsInjective : Prop :=
  ∀ (r : Nat) (suffix : Byte) (t u : List Byte), t.length < r → t.length = u.length →
    padBlock r suffix t = padBlock r suffix u → t = u

/-- Rules R163, R170, R171: the output has exactly d/8 bytes, and its byte k is byte k mod r of the state after k / r further
permutations: a squeeze permutes only between blocks, and never emits lanes r/8 .. 24. -/
def Obligations.SpongeOutputBytes : Prop :=
  ∀ (M : List Byte) (capacity outBits : Nat) (suffix : Byte), capacity ∈ [256, 448, 512, 768, 1024] →
    let r := rateOf capacity
    (sponge M capacity outBits suffix).length = outBits / 8 ∧
    ∀ k, k < outBits / 8 → (sponge M capacity outBits suffix)[k]? =
      some (laneByte ((keccakIter (k / r) (absorbAll r suffix M)).toList.getD (k % r / 8) 0) (k % r % 8))

/-- Rule R173: "Sponge(M, c, d1, suffix) is the first d1/8 bytes of Sponge(M, c, d2, suffix) whenever d1 ≤ d2". -/
def Obligations.ShorterOutputIsAPrefix : Prop :=
  ∀ (M : List Byte) (capacity d1 d2 : Nat) (suffix : Byte), capacity ∈ [256, 448, 512, 768, 1024] → d1 ≤ d2 →
    sponge M capacity d1 suffix = (sponge M capacity d2 suffix).take (d1 / 8)

/-! HASH and SHAKE -/

/-- Rules R29, R73: byte k of the message is IBUF byte k as stored. An unwritten byte is one of the draws taken by this read
(rule R33): a free value, whatever it is. The draws' numbers are the model's choice (assumption 3). -/
def Obligations.MessageIsIbufAsStored : Prop :=
  ∀ (s : State), (readMessage s).1.length = s.inLen.toNat ∧
    ∀ k, k < s.inLen.toNat →
      (∀ b, s.mem.get? (0x4000 + k) = some b → (readMessage s).1[k]? = some b) ∧
      (s.mem.get? (0x4000 + k) = none →
        ∃ d, s.draws ≤ d ∧ d < (readMessage s).2 ∧ (readMessage s).1[k]? = some (Config.freeByte d))

/-- Rules R206 to R210: with a legal SIZE and a message that fits IBUF, HASH answers the next state whose OBUF holds the digest
with capacity 2·md_len and suffix 0x01 in the form RAW selects, lanes zero, OUT_COUNT = nout, ERRCODE 0. -/
def Obligations.HashResult : Prop :=
  ∀ (raw : Bool) (s : State), s.cfg.legal = true → s.size.toNat ∈ [224, 256, 384, 512] →
    s.inLen.toNat ≤ s.cfg.ibufBytes →
    let md := s.size.toNat
    let D := sponge (readMessage s).1 (2 * md) md 0x01
    exec (.hash raw) s = .next { s with
      lanes := zeroLanes
      mem := s.mem.writeBytes 0x8000 (if raw then D else D.flatMap hexByte)
      outCount := BitVec.ofNat 32 (if raw then md / 8 else 2 * (md / 8))
      draws := (readMessage s).2
      seq := .idle, done := true, err := .ok }

/-- Rules R206, R207, R210, R273: a bad SIZE is error 1, checked first; then a message that does not fit IBUF is error 4; HASH
reports no other error (never 5). Only STATUS and OUT_COUNT change. -/
def Obligations.HashErrors : Prop :=
  ∀ (raw : Bool) (s : State), s.cfg.legal = true →
    (s.size.toNat ∉ [224, 256, 384, 512] →
      exec (.hash raw) s = .next { s with seq := .idle, done := true, err := .unsupportedMdLen, outCount := 0 }) ∧
    (s.size.toNat ∈ [224, 256, 384, 512] → s.cfg.ibufBytes < s.inLen.toNat →
      exec (.hash raw) s = .next { s with seq := .idle, done := true, err := .inLenTooLarge, outCount := 0 }) ∧
    (∀ t, exec (.hash raw) s = .next t → t.err = .ok ∨ t.err = .unsupportedMdLen ∨ t.err = .inLenTooLarge)

/-- Rules R207 to R209, R211, R212, R215: with a legal SIZE and OUT_LEN, a message that fits IBUF and an output that fits OBUF,
SHAKE answers the next state whose OBUF holds OUT_LEN/8 bytes of the sponge with capacity 2·level and suffix 0x1F. -/
def Obligations.ShakeResult : Prop :=
  ∀ (raw : Bool) (s : State), s.size.toNat ∈ [128, 256] → s.outLen.toNat ≠ 0 → s.outLen.toNat % 8 = 0 →
    s.inLen.toNat ≤ s.cfg.ibufBytes →
    let nd := s.outLen.toNat / 8
    let nout := if raw then nd else 2 * nd
    nout ≤ s.cfg.obufBytes →
    let D := sponge (readMessage s).1 (2 * s.size.toNat) s.outLen.toNat 0x1F
    exec (.shake raw) s = .next { s with
      lanes := zeroLanes
      mem := s.mem.writeBytes 0x8000 (if raw then D else D.flatMap hexByte)
      outCount := BitVec.ofNat 32 nout
      draws := (readMessage s).2
      seq := .idle, done := true, err := .ok }

/-- Rules R207, R211, R212, R215, R273: SHAKE's errors in their order: SIZE (2), OUT_LEN (3), IN_LEN (4), output size (5). -/
def Obligations.ShakeErrors : Prop :=
  ∀ (raw : Bool) (s : State),
    let fails : ErrCode → State := fun e => { s with seq := .idle, done := true, err := e, outCount := 0 }
    let nout := if raw then s.outLen.toNat / 8 else 2 * (s.outLen.toNat / 8)
    (s.size.toNat ∉ [128, 256] → exec (.shake raw) s = .next (fails .unsupportedSecurityLevel)) ∧
    (s.size.toNat ∈ [128, 256] → (s.outLen.toNat = 0 ∨ s.outLen.toNat % 8 ≠ 0) →
      exec (.shake raw) s = .next (fails .badOutLen)) ∧
    (s.size.toNat ∈ [128, 256] → s.outLen.toNat ≠ 0 → s.outLen.toNat % 8 = 0 → s.cfg.ibufBytes < s.inLen.toNat →
      exec (.shake raw) s = .next (fails .inLenTooLarge)) ∧
    (s.size.toNat ∈ [128, 256] → s.outLen.toNat ≠ 0 → s.outLen.toNat % 8 = 0 → s.inLen.toNat ≤ s.cfg.ibufBytes →
      s.cfg.obufBytes < nout → exec (.shake raw) s = .next (fails .outTooLarge))

/-- Rules R203, R272: a command that ends in an error changes STATUS and OUT_COUNT (to 0) and nothing else. -/
def Obligations.ErrorChangesOnlyStatusAndCount : Prop :=
  ∀ (i : Instr) (s t : State), exec i s = .next t → t.err ≠ .ok →
    t = { s with seq := .idle, done := true, err := t.err, outCount := 0 }

/-- Rules R209, R213: what OBUF reads as, byte by byte, after a HASH or SHAKE that succeeded: the digest, or two hexadecimal
characters a byte with the high nibble first; the OBUF bytes from OUT_COUNT on keep their values; and HEXCHAR's table. -/
def Obligations.OutputFormInObuf : Prop :=
  (∀ (i : Instr) (raw : Bool) (p : SpongeCall) (s t : State), s.cfg.legal = true →
    (i = .hash raw ∧ p = hashCall raw s) ∨ (i = .shake raw ∧ p = shakeCall raw s) →
    exec i s = .next t → t.err = .ok →
    let D := sponge (readMessage s).1 p.capacity p.outBits p.suffix
    (raw = true → t.outCount.toNat = D.length ∧ ∀ k, k < D.length → t.mem.get? (0x8000 + k) = D[k]?) ∧
    (raw = false → t.outCount.toNat = 2 * D.length ∧
      ∀ k (h : k < D.length), t.mem.get? (0x8000 + 2 * k) = some (hexChar (D[k].extractLsb' 4 4)) ∧
        t.mem.get? (0x8000 + 2 * k + 1) = some (hexChar (D[k].extractLsb' 0 4))) ∧
    (∀ k, t.outCount.toNat ≤ k → t.mem.get? (0x8000 + k) = s.mem.get? (0x8000 + k))) ∧
  (List.range 16).map (fun n => hexChar (BitVec.ofNat 4 n)) =
    [0x30, 0x31, 0x32, 0x33, 0x34, 0x35, 0x36, 0x37, 0x38, 0x39, 0x61, 0x62, 0x63, 0x64, 0x65, 0x66]

/-- Rule R217: run on one state, the hexadecimal form holds the hexadecimal characters of the raw form's bytes, and is twice as
long. Where message bytes are unwritten, that both runs hash the same bytes is the model's choice: they take the draws of the same
numbers (assumption 3). -/
def Obligations.HexOutputEncodesRawOutput : Prop :=
  ∀ (s t u : State), s.cfg.legal = true →
    (exec (.hash true) s = .next t ∧ exec (.hash false) s = .next u) ∨
      (exec (.shake true) s = .next t ∧ exec (.shake false) s = .next u) →
    t.err = .ok → u.err = .ok →
    u.outCount.toNat = 2 * t.outCount.toNat ∧
    ∀ k, k < t.outCount.toNat → ∃ b, t.mem.get? (0x8000 + k) = some b ∧
      u.mem.get? (0x8000 + 2 * k) = some (hexChar (b.extractLsb' 4 4)) ∧
      u.mem.get? (0x8000 + 2 * k + 1) = some (hexChar (b.extractLsb' 0 4))

/-- Rule R216: the length laws. In hex mode OUT_COUNT is SIZE/4 after HASH and OUT_LEN/4 after SHAKE; in raw mode half of
that. -/
def Obligations.OutputLengthLaws : Prop :=
  ∀ (s t : State), s.cfg.legal = true →
    (exec (.hash false) s = .next t → t.err = .ok → t.outCount.toNat = s.size.toNat / 4) ∧
    (exec (.hash true) s = .next t → t.err = .ok → 2 * t.outCount.toNat = s.size.toNat / 4) ∧
    (exec (.shake false) s = .next t → t.err = .ok → t.outCount.toNat = s.outLen.toNat / 4) ∧
    (exec (.shake true) s = .next t → t.err = .ok → 2 * t.outCount.toNat = s.outLen.toNat / 4)

/-- Rules R205, R208: a HASH or SHAKE that succeeds gives the same state whatever the lanes held, and leaves them zero. Where message
bytes are unwritten, that both runs hash the same bytes is the model's choice: they take the draws of the same numbers
(assumption 3). -/
def Obligations.SpongeCommandsIgnoreTheLanes : Prop :=
  ∀ (i : Instr) (raw : Bool) (s t : State) (L : Lanes), i = .hash raw ∨ i = .shake raw →
    exec i s = .next t → t.err = .ok →
    t.lanes = Vector.replicate 25 0 ∧ exec i { s with lanes := L } = .next t

/-! PERMUTE, CLEAR, and all commands -/

/-- Rule R220: PERMUTE replaces the lanes by Keccak-f of them, whatever RAW is; OUT_COUNT and the buffers are unchanged. -/
def Obligations.PermuteResult : Prop :=
  ∀ (raw : Bool) (s : State), exec (.permute raw) s =
    .next { s with lanes := keccakF s.lanes, seq := .idle, done := true, err := .ok }

/-- Rule R220: "n PERMUTE commands in a row apply KeccakF n times." -/
def Obligations.PermutesInARow : Prop :=
  ∀ (f : Nat → State) (raw : Nat → Bool) (n : Nat),
    (∀ k, k < n → exec (.permute (raw k)) (f k) = .next (f (k + 1))) →
    (f n).lanes = keccakIter n (f 0).lanes ∧ (f n).outCount = (f 0).outCount ∧ (f n).mem = (f 0).mem

/-- Rule R222: CLEAR zeroes every lane, whatever RAW is; OUT_COUNT and the buffers are unchanged. -/
def Obligations.ClearResult : Prop :=
  ∀ (raw : Bool) (s : State), ∃ t, exec (.clear raw) s = .next t ∧
    (∀ i : Fin 25, t.lanes[i] = 0) ∧
    t = { s with lanes := t.lanes, seq := .idle, done := true, err := .ok }

/-- Rule R201: every command, in every state, completes: BUSY = 0, DONE = 1, and OUT_COUNT = 0 if ERRCODE ≠ 0. -/
def Obligations.EveryCommandCompletes : Prop :=
  ∀ (i : Instr) (s : State), ∃ t, exec i s = .next t ∧ t.busy = false ∧ t.done = true ∧
    (t.err ≠ .ok → t.outCount = 0)

/-- Rules R203, R209, R220, R222, R224: the frame of the four commands. IN_LEN, SIZE, OUT_LEN and what belongs to the bus
never change. PERMUTE and CLEAR change no byte of memory and not OUT_COUNT. HASH and SHAKE store to OBUF bytes
0 .. OUT_COUNT−1 and change no other byte, IBUF among them; with an error they store nothing and keep the lanes. -/
def Obligations.CommandFrame : Prop :=
  ∀ (i : Instr) (s t : State), s.cfg.legal = true → exec i s = .next t →
    t.inLen = s.inLen ∧ t.size = s.size ∧ t.outLen = s.outLen ∧
    t.cfg = s.cfg ∧ t.rst = s.rst ∧ t.rdata = s.rdata ∧ t.agenda = s.agenda ∧
    (∀ raw, i = .permute raw ∨ i = .clear raw →
      t.outCount = s.outCount ∧ t.draws = s.draws ∧ ∀ a, t.mem.get? a = s.mem.get? a) ∧
    (∀ raw, i = .hash raw ∨ i = .shake raw →
      (∀ a, a < 0x8000 ∨ 0x8000 + t.outCount.toNat ≤ a → t.mem.get? a = s.mem.get? a) ∧
      (t.err ≠ .ok → t.lanes = s.lanes ∧ t.draws = s.draws ∧ ∀ a, t.mem.get? a = s.mem.get? a))

/-! STATUS and the CSRs -/

/-- Rules R28, R65, R270, R280: STATUS is BUSY + 2·DONE + 16·ERRCODE, every reserved bit zero, ERRCODE from the table of codes;
`busy_o` and `done_o` are its two low bits. -/
def Obligations.StatusWordLayout : Prop :=
  (∀ s : State, s.status.toNat = s.busy.toNat + 2 * s.done.toNat + 16 * s.err.code.toNat ∧
    s.busyO = s.status.getLsbD 0 ∧ s.doneO = s.status.getLsbD 1) ∧
  ErrCode.ok.code = 0 ∧ ErrCode.unsupportedMdLen.code = 1 ∧ ErrCode.unsupportedSecurityLevel.code = 2 ∧
  ErrCode.badOutLen.code = 3 ∧ ErrCode.inLenTooLarge.code = 4 ∧ ErrCode.outTooLarge.code = 5 ∧
  ErrCode.illegalCmd.code = 6

/-- Rule R200: a 4-byte write of CMD is accepted when BUSY = 0 and reset is not asserted, and "Acceptance changes nothing
else"; otherwise it is ignored. -/
def Obligations.CmdWriteIsAccepted : Prop :=
  ∀ (s : State) (w : Word),
    (s.busy = false → s.rst = false →
      hostTx (.write 0x0000 .four w) s = { s with seq := .running w, done := false, err := .ok }) ∧
    ((s.busy = true ∨ s.rst = true) → hostTx (.write 0x0000 .four w) s = s)

/-- Rules R26 to R34: what a 4-byte read of each CSR returns while `rst` is low, BUSY or not; no draw is taken. -/
def Obligations.CsrReadValues : Prop :=
  ∀ s : State, s.rst = false →
    memRead s 0x00 .four = (0, s.draws) ∧ memRead s 0x04 .four = (s.status, s.draws) ∧
    memRead s 0x08 .four = (s.inLen, s.draws) ∧ memRead s 0x0C .four = (s.size, s.draws) ∧
    memRead s 0x10 .four = (s.outLen, s.draws) ∧ memRead s 0x14 .four = (s.outCount, s.draws) ∧
    memRead s 0x18 .four = (BitVec.ofNat 32 s.cfg.ibufBytes, s.draws) ∧
    memRead s 0x1C .four = (BitVec.ofNat 32 s.cfg.obufBytes, s.draws)

/-- Rules R26, R29 to R32, R34: while the block is idle, a 4-byte write sets IN_LEN, SIZE or OUT_LEN to any value; a write to
STATUS, OUT_COUNT, IBUF_SIZE or OBUF_SIZE is ignored. -/
def Obligations.CsrWriteEffects : Prop :=
  ∀ (s : State) (v : Word), s.rst = false → s.busy = false →
    hostTx (.write 0x08 .four v) s = { s with inLen := v } ∧
    hostTx (.write 0x0C .four v) s = { s with size := v } ∧
    hostTx (.write 0x10 .four v) s = { s with outLen := v } ∧
    hostTx (.write 0x04 .four v) s = s ∧ hostTx (.write 0x14 .four v) s = s ∧
    hostTx (.write 0x18 .four v) s = s ∧ hostTx (.write 0x1C .four v) s = s

/-- Rule R67: in the CSR range a 1- or 2-byte write is ignored, and an aligned 1- or 2-byte read returns those bytes of the
register's value. -/
def Obligations.SubWordCsrAccess : Prop :=
  ∀ (s : State) (a : Addr), a.toNat < 0x20 →
    (∀ v, hostTx (.write a .one v) s = s ∧ hostTx (.write a .two v) s = s) ∧
    (s.rst = false →
      (memRead s a .one).1 = ((csrValue s (csrAt (a.toNat / 4))).extractLsb' (8 * (a.toNat % 4)) 8).setWidth 32 ∧
      (a.toNat % 2 = 0 →
        (memRead s a .two).1 = ((csrValue s (csrAt (a.toNat / 4))).extractLsb' (8 * (a.toNat % 4)) 16).setWidth 32))

/-! Memory and the bus -/

/-- Rules R68, R71: an aligned read of n bytes is the n one-byte reads at A, A + 1, … put together little-endian, idle or BUSY,
whichever of the bytes are draws: byte k of the value is what a one-byte read at A + k returns, and the draws are taken in address
order, d k of them before byte k (the model's choice, assumption 3). -/
def Obligations.ReadIsLittleEndian : Prop :=
  ∀ (s : State) (a : Addr) (n : Size), s.rst = false → a.toNat % n.bytes = 0 →
    (memRead s a n).1.toNat < 2 ^ (8 * n.bytes) ∧
    ∃ d : Nat → Nat, d 0 = s.draws ∧ d n.bytes = (memRead s a n).2 ∧
      ∀ k, k < n.bytes → memRead { s with draws := d k } (a + BitVec.ofNat 16 k) .one =
        (((memRead s a n).1.extractLsb' (8 * k) 8).setWidth 32, d (k + 1))

/-- Rules R62, R68, R71: after an aligned write outside the CSR range and the STATE window, each byte in IBUF or OBUF holds its
byte of the value, every other byte of memory reads as before, and nothing else changes. -/
def Obligations.BufferWriteStoresEachByte : Prop :=
  ∀ (s : State) (a : Addr) (n : Size) (v : Word), s.cfg.legal = true → s.rst = false → s.busy = false →
    a.toNat % n.bytes = 0 → 0x1C8 ≤ a.toNat →
    (∀ k, k < n.bytes → (inIbuf s.cfg (a.toNat + k) || inObuf s.cfg (a.toNat + k)) = true →
      (hostTx (.write a n v) s).mem.get? (a.toNat + k) = some (v.extractLsb' (8 * k) 8)) ∧
    (∀ x, (x < a.toNat ∨ a.toNat + n.bytes ≤ x ∨ (inIbuf s.cfg x || inObuf s.cfg x) = false) →
      (hostTx (.write a n v) s).mem.get? x = s.mem.get? x) ∧
    hostTx (.write a n v) s = { s with mem := (hostTx (.write a n v) s).mem }

/-- Rules R63, R68: an aligned access of n bytes at A in the STATE window. A read returns the n lane bytes at A .. A+n−1, byte k of
lane i being at 0x0100 + 8i + k; a write of v stores byte j of v into the lane byte at A + j and leaves every other lane byte, and
everything else, unchanged. -/
def Obligations.StateWindowBytes : Prop :=
  ∀ (s : State) (a : Addr) (n : Size) (v : Word), s.rst = false → s.busy = false →
    a.toNat % n.bytes = 0 → 0x100 ≤ a.toNat → a.toNat < 0x1C8 →
    let t := hostTx (.write a n v) s
    (memRead s a n).2 = s.draws ∧ (memRead s a n).1.toNat < 2 ^ (8 * n.bytes) ∧
    t = { s with lanes := t.lanes } ∧
    ∀ (i : Fin 25) (k : Nat), k < 8 →
      let x := 0x100 + 8 * i.val + k
      (a.toNat ≤ x → x < a.toNat + n.bytes →
        (memRead s a n).1.extractLsb' (8 * (x - a.toNat)) 8 = s.lanes[i].extractLsb' (8 * k) 8 ∧
        t.lanes[i].extractLsb' (8 * k) 8 = v.extractLsb' (8 * (x - a.toNat)) 8) ∧
      (x < a.toNat ∨ a.toNat + n.bytes ≤ x →
        t.lanes[i].extractLsb' (8 * k) 8 = s.lanes[i].extractLsb' (8 * k) 8)

/-- Rules R61, R68: an aligned access of 1, 2 or 4 bytes that are all reserved: a read returns 0 and takes no draw, a write changes
nothing, BUSY or not. -/
def Obligations.ReservedBytes : Prop :=
  ∀ (s : State) (a : Addr) (n : Size), s.cfg.legal = true → s.rst = false → a.toNat % n.bytes = 0 →
    (∀ x, a.toNat ≤ x → x < a.toNat + n.bytes →
      (0x20 ≤ x ∧ x < 0x100) ∨ (0x1C8 ≤ x ∧ x < 0x4000) ∨ (0x4000 + s.cfg.ibufBytes ≤ x ∧ x < 0x8000) ∨
        0x8000 + s.cfg.obufBytes ≤ x) →
    memRead s a n = (0, s.draws) ∧ ∀ v, hostTx (.write a n v) s = s

/-- Rule R69: "A misaligned write is ignored. A misaligned read returns 0." That this holds of a read in the STATE window or OBUF
while BUSY = 1 too (rule R70), and not of a read in reset (rule R302), is the model's deduction (assumptions 18 and 14). -/
def Obligations.MisalignedAccess : Prop :=
  ∀ (s : State) (a : Addr) (n : Size), a.toNat % n.bytes ≠ 0 →
    (∀ v, hostTx (.write a n v) s = s) ∧ (s.rst = false → memRead s a n = (0, s.draws))

/-- Rules R33, R70, R305, R306: while BUSY = 1 every write is ignored; a byte of a CSR reads as its value, a byte of IBUF as
stored, a reserved byte as 0; a byte of the STATE window or OBUF, whatever is stored there, and an IBUF byte not written since
reset are the next draw, a free value. The draws' numbers are the model's choice (assumption 3). -/
def Obligations.BusyWindow : Prop :=
  ∀ (s : State), s.cfg.legal = true → s.rst = false → s.busy = true →
    (∀ a n v, hostTx (.write a n v) s = s) ∧
    ∀ a : Addr,
      (a.toNat < 0x20 → memRead s a .one =
        (((csrValue s (csrAt (a.toNat / 4))).extractLsb' (8 * (a.toNat % 4)) 8).setWidth 32, s.draws)) ∧
      (∀ b, inIbuf s.cfg a.toNat = true → s.mem.get? a.toNat = some b →
        memRead s a .one = (b.setWidth 32, s.draws)) ∧
      (regionOf s.cfg a.toNat = .reserved → memRead s a .one = (0, s.draws)) ∧
      (((0x100 ≤ a.toNat ∧ a.toNat < 0x1C8) ∨ inObuf s.cfg a.toNat = true ∨
          (inIbuf s.cfg a.toNat = true ∧ s.mem.get? a.toNat = none)) →
        memRead s a .one = ((Config.freeByte s.draws).setWidth 32, s.draws + 1))

/-- Rules R33, R35: an idle block's buffer byte reads as stored, and as the next draw, a free value, if it was not written
since reset. The draws' numbers are the model's choice (assumption 3). -/
def Obligations.BufferByteReads : Prop :=
  ∀ (s : State) (a : Addr), s.cfg.legal = true → s.rst = false → s.busy = false →
    (inIbuf s.cfg a.toNat || inObuf s.cfg a.toNat) = true →
    (∀ b, s.mem.get? a.toNat = some b → memRead s a .one = (b.setWidth 32, s.draws)) ∧
    (s.mem.get? a.toNat = none → memRead s a .one = ((Config.freeByte s.draws).setWidth 32, s.draws + 1))

/-- Rules R28, R66, R72, R200, R276: a read puts what MemRead returns on the bus, counts its draws, and changes nothing else; two reads with no draw among their bytes agree; and a
transaction that is no accepted write of CMD (4 bytes, BUSY = 0, not in reset) leaves BUSY with the running command, DONE, ERRCODE
and OUT_COUNT as they are. The bus data and the draw count are the model's own fields (assumptions 3 and 5). -/
def Obligations.OnlyACmdWriteHasASideEffect : Prop :=
  (∀ (s : State) (a : Addr) (n : Size),
    hostTx (.read a n) s = { s with rdata := (memRead s a n).1, draws := (memRead s a n).2 }) ∧
  (∀ (s : State) (a : Addr) (n : Size), s.rst = false →
    (∀ k d, k < n.bytes → hostByteDraws s (a.toNat + k) d = d) →
    memRead (hostTx (.read a n) s) a n = memRead s a n) ∧
  (∀ (s : State) (t : Tx), ¬ (s.busy = false ∧ s.rst = false ∧ ∃ w, t = .write 0x0000 .four w) →
    (hostTx t s).seq = s.seq ∧ (hostTx t s).done = s.done ∧ (hostTx t s).err = s.err ∧
    (hostTx t s).outCount = s.outCount)

/-! Reset -/

/-- Rules R41, R303: the values of the state after reset, read field by field. The model's choices in it: the build is the
reference configuration (assumption 1), the pin `rst` is a field and is low there (assumption 6), and the unspecified buffers are a
memory with nothing listed, so that a read of them draws (assumption 7). -/
def Obligations.ResetValues : Prop :=
  (∀ i : Fin 25, State.reset.lanes[i] = 0) ∧ State.reset.status = 0 ∧ State.reset.inLen = 0 ∧ State.reset.size = 0 ∧
  State.reset.outLen = 0 ∧ State.reset.outCount = 0 ∧ State.reset.seq = .idle ∧ State.reset.busyO = false ∧
  State.reset.doneO = false ∧ (∀ a, State.reset.mem.get? a = none) ∧ State.reset.rst = false ∧
  memRead State.reset 0x00 .four = (0, State.reset.draws) ∧
  memRead State.reset 0x18 .four = (BitVec.ofNat 32 State.reset.cfg.ibufBytes, State.reset.draws) ∧
  memRead State.reset 0x1C .four = (BitVec.ofNat 32 State.reset.cfg.obufBytes, State.reset.draws)

/-- Rules R274, R300, R301, R303: a clock edge with `rst` high gives the reset values, whatever the state (a running command among
them) and whatever comes after, and no buffer byte is listed any more; a clock edge with `rst` low only lowers the level. Edges as
events are the model's choice (assumptions 2 and 6). -/
def Obligations.ResetEdgeRule : Prop :=
  (∀ (s : State) (rest : List Event), s.agenda = .reset true :: rest →
    ∃ t, step s = .next t ∧
      (∀ i : Fin 25, t.lanes[i] = 0) ∧ t.status = 0 ∧ t.inLen = 0 ∧ t.size = 0 ∧ t.outLen = 0 ∧ t.outCount = 0 ∧
      t.seq = .idle ∧ t.busyO = false ∧ t.doneO = false ∧ t.mem = [] ∧ t.rst = true ∧ t.cfg = s.cfg ∧ t.agenda = rest) ∧
  (∀ (s : State) (rest : List Event), s.agenda = .reset false :: rest →
    step s = .next { s with rst := false, agenda := rest })

/-- Rule R302: while `rst` is high, host writes are ignored and a host read returns draws, free values, one for each byte. The
draws' numbers, and draws for misaligned reads too, are the model's choices (assumptions 3 and 14). -/
def Obligations.HostAccessDuringReset : Prop :=
  ∀ (s : State), s.rst = true →
    (∀ a n v, hostTx (.write a n v) s = s) ∧
    ∀ (a : Addr) (n : Size), (memRead s a n).2 = s.draws + n.bytes ∧
      ∀ k, k < n.bytes → (memRead s a n).1.extractLsb' (8 * k) 8 = Config.freeByte (s.draws + k)

/-! The whole machine -/

/-- The invariant of Safety.lean holds after reset, in the reference build (the model's choice, assumption 1). -/
def Obligations.InvariantAtReset : Prop := State.reset.Inv

/-- The invariant is kept by every step from every state that has it: the memory stays canonical and inside the buffers,
BUSY implies DONE = 0 and ERRCODE = 0, an error implies OUT_COUNT = 0, no count exceeds OBUF, reset holds its values. -/
def Obligations.StepKeepsTheInvariant : Prop :=
  ∀ s t : State, s.Inv → step s = .next t → t.Inv

/-- Rule R271: "No host transaction ever fails or traps."; and no block turn or reset edge of any state faults or is refused
(assumption 17), and the build's parameters never change (rules R34, R64; assumption 4). -/
def Obligations.EveryStepGoesOn : Prop :=
  ∀ s : State, ∃ t, step s = .next t ∧ t.cfg = s.cfg

/-- Rules R201, R312: an accepted command completes. Whatever host transactions the agenda holds, and wherever the block's
turns stand in it, after at most one step more than the agenda is long the block has been idle with DONE = 1. That an empty agenda gives the block
its turn is the model's form of fairness (assumption 2). -/
def Obligations.AcceptedCommandCompletes : Prop :=
  ∀ s : State, s.rst = false → s.busy = true → noReset s.agenda = true →
    ∃ k t, k ≤ s.agenda.length + 1 ∧ core.run k s = .next t ∧ t.busy = false ∧ t.done = true

/-- Rules R70, R79: host transactions after acceptance cannot change a command in flight. However many come before the
completion, it gives the same lanes, buffers, OUT_COUNT, STATUS and parameters. Only a HASH or SHAKE that succeeds reads a
message, whose bytes must then have been written: an unwritten one is a draw (rule R307). -/
def Obligations.CommandInFlightIsFixed : Prop :=
  ∀ (s t u : State) (w : Word) (txs : List Tx), s.rst = false → s.seq = .running w →
    blockTurn s = .next t →
    (∀ raw, decode w = .instr (.hash raw) ∨ decode w = .instr (.shake raw) → t.err = .ok →
      ∀ k, k < s.inLen.toNat → (s.mem.get? (0x4000 + k)).isSome) →
    blockTurn (txs.foldl (fun s tx => hostTx tx s) s) = .next u →
    u.lanes = t.lanes ∧ u.mem = t.mem ∧ u.outCount = t.outCount ∧ u.status = t.status ∧
    u.inLen = t.inLen ∧ u.size = t.size ∧ u.outLen = t.outLen

/-- Rules R38, R40, R172, R220, R314: the hidden sequencer, started on a checked call, reaches WRITEBACK with exactly the digest
that the one completion step uses, after floor(L/r) + ceil(nd/r) permutations; started in PERMUTE_ONLY, with Keccak-f of the
lanes after one. The sequencer beside State, step by step, is the model's choice (assumption 10). -/
def Obligations.SequencerComputesTheCompletion : Prop :=
  (∀ (s : State) (raw : Bool) (p : SpongeCall), hashOperands raw s = .ok p ∨ shakeOperands raw s = .ok p →
    ∃ n, let h := Hidden.run n (Hidden.startSponge p (readMessage s).1)
      h.phase = .writeback ∧ h.out = digest p s ∧ h.perms = p.permutations s.inLen.toNat) ∧
  (∀ S : Lanes, ∃ n, let h := Hidden.run n (Hidden.startPermute S)
    h.phase = .writeback ∧ h.work = keccakF S ∧ h.perms = 1)
end

