-- ==== Sys2Proof/Laws/Memory.lean ====
section
/-! SUPPORT. The buffer memory: read after write, the canonical form, and the reads the block makes. -/

namespace Sys2Proof.Machine

@[simp] theorem Memory.get?_nil (x : Nat) : Memory.get? [] x = none := rfl

theorem Memory.get?_cons (a : Nat) (b : Byte) (m : Memory) (x : Nat) :
    Memory.get? ((a, b) :: m) x = if x = a then some b else Memory.get? m x := rfl

/-- An address below every listed one is not listed. -/
theorem Memory.get?_eq_none {m : Memory} {x : Nat} (h : ∀ p ∈ m, p.1 ≠ x) : m.get? x = none := by
  induction m with
  | nil => rfl
  | cons p m ih =>
    obtain ⟨a, b⟩ := p
    have ha : x ≠ a := fun e => h (a, b) (by simp) e.symm
    rw [Memory.get?_cons, if_neg ha]
    exact ih fun q hq => h q (by simp [hq])

/-- Read after write, at the same place and at every other. -/
theorem Memory.get?_set (m : Memory) (x : Nat) (v : Byte) (y : Nat) :
    (m.set x v).get? y = if y = x then some v else m.get? y := by
  induction m with
  | nil => simp [Memory.set, Memory.get?_cons]
  | cons p m ih =>
    obtain ⟨a, b⟩ := p
    unfold Memory.set
    by_cases h1 : x < a
    · simp [h1, Memory.get?_cons]
    · by_cases h2 : x = a
      · subst h2
        simp only [lt_irrefl, if_false, if_true, Memory.get?_cons]
        split <;> rfl
      · simp only [h1, h2, if_false, Memory.get?_cons, ih]
        by_cases hya : y = a
        · simp [hya, Ne.symm h2]
        · simp [hya]

/-- Where the entries of a memory after a write come from. -/
theorem Memory.mem_set {m : Memory} {x : Nat} {v : Byte} {p : Nat × Byte} (h : p ∈ m.set x v) :
    p = (x, v) ∨ p ∈ m := by
  induction m with
  | nil => simpa [Memory.set] using h
  | cons q m ih =>
    obtain ⟨a, b⟩ := q
    unfold Memory.set at h
    split at h
    · simpa using h
    · split at h
      · rcases List.mem_cons.mp h with h | h
        · exact .inl h
        · exact .inr (by simp [h])
      · rcases List.mem_cons.mp h with h | h
        · exact .inr (by simp [h])
        · rcases ih h with h | h
          · exact .inl h
          · exact .inr (by simp [h])

/-- A write keeps the canonical form. -/
theorem Memory.set_wf {m : Memory} (h : m.wf) (x : Nat) (v : Byte) : (m.set x v).wf := by
  induction m with
  | nil => simp [Memory.set, Memory.wf]
  | cons q m ih =>
    obtain ⟨a, b⟩ := q
    obtain ⟨hq, hm⟩ := List.pairwise_cons.mp h
    unfold Memory.set
    split
    · rename_i hlt
      refine List.pairwise_cons.mpr ⟨?_, h⟩
      intro p hp
      rcases List.mem_cons.mp hp with rfl | hp
      · exact hlt
      · exact lt_trans hlt (hq p hp)
    · split
      · rename_i _ heq
        subst heq
        exact List.pairwise_cons.mpr ⟨hq, hm⟩
      · rename_i hge hne
        refine List.pairwise_cons.mpr ⟨?_, ih hm⟩
        intro p hp
        rcases Memory.mem_set hp with rfl | hp
        · exact lt_of_le_of_ne (not_lt.mp hge) (Ne.symm hne)
        · exact hq p hp

/-- Storing several bytes keeps the canonical form. -/
theorem Memory.writeBytes_wf {m : Memory} (h : m.wf) (x : Nat) (bs : List Byte) : (m.writeBytes x bs).wf := by
  induction bs generalizing m x with
  | nil => exact h
  | cons b bs ih => exact ih (Memory.set_wf h x b) (x + 1)

/-- What a run of stored bytes reads as: byte y − x of the run inside it, the old byte outside. -/
theorem Memory.get?_writeBytes (m : Memory) (x : Nat) (bs : List Byte) (y : Nat) :
    (m.writeBytes x bs).get? y = if x ≤ y ∧ y < x + bs.length then bs[y - x]? else m.get? y := by
  induction bs generalizing m x with
  | nil => simp [Memory.writeBytes]
  | cons b bs ih =>
    simp only [Memory.writeBytes, ih, Memory.get?_set, List.length_cons]
    by_cases h : y = x
    · subst h
      simp
    · by_cases h2 : x + 1 ≤ y ∧ y < x + 1 + bs.length
      · have h3 : x ≤ y ∧ y < x + (bs.length + 1) := by omega
        have h4 : y - x = (y - (x + 1)) + 1 := by omega
        rw [if_pos h2, if_pos h3, h4, List.getElem?_cons_succ]
      · have h3 : ¬ (x ≤ y ∧ y < x + (bs.length + 1)) := by omega
        rw [if_neg h2, if_neg h3, if_neg h]

/-- A write at a buffer address keeps every listed byte in a buffer. -/
theorem Memory.set_inBuffers {c : Config} {m : Memory} (h : m.inBuffers c = true) {x : Nat}
    (hx : (inIbuf c x || inObuf c x) = true) (v : Byte) : (m.set x v).inBuffers c = true := by
  refine List.all_eq_true.mpr fun p hp => ?_
  rcases Memory.mem_set hp with rfl | hp
  · exact hx
  · exact List.all_eq_true.mp h p hp

/-- Bytes stored inside OBUF keep every listed byte in a buffer. -/
theorem Memory.writeBytes_inBuffers {c : Config} {m : Memory} (h : m.inBuffers c = true) (x : Nat) (bs : List Byte)
    (hx : ∀ y, x ≤ y → y < x + bs.length → inObuf c y = true) : (m.writeBytes x bs).inBuffers c = true := by
  induction bs generalizing m x with
  | nil => exact h
  | cons b bs ih =>
    refine ih (Memory.set_inBuffers h ?_ b) (x + 1) fun y hy1 hy2 => ?_
    · rw [hx x (le_refl x) (by simp), Bool.or_true]
    · exact hx y (by omega) (by simp only [List.length_cons]; omega)

@[simp] theorem Memory.readBytes_length (m : Memory) (a n d : Nat) : (m.readBytes a n d).1.length = n := by
  induction n generalizing a d with
  | zero => rfl
  | succ n ih => simp [Memory.readBytes, ih]

/-- Bytes that have been written are read as stored, and nothing is drawn (rule R73). -/
theorem Memory.readBytes_of_written {m : Memory} {a n : Nat} (h : ∀ k, k < n → (m.get? (a + k)).isSome) (d : Nat) :
    m.readBytes a n d = ((List.range n).map fun k => m.readOr (a + k) 0, d) := by
  induction n generalizing a d with
  | zero => rfl
  | succ n ih =>
    have h0 := h 0 (by omega)
    rw [Nat.add_zero] at h0
    have hr : ∀ k, k < n → (m.get? (a + 1 + k)).isSome := fun k hk => by
      have := h (k + 1) (by omega)
      rwa [show a + (k + 1) = a + 1 + k by omega] at this
    obtain ⟨b, hb⟩ := Option.isSome_iff_exists.mp h0
    simp only [Memory.readBytes, Memory.drawsAfter, h0, if_true, ih hr, List.range_succ_eq_map, List.map_cons, List.map_map]
    refine Prod.ext ?_ rfl
    simp only [Memory.readOr, hb, Option.getD_some, Nat.add_zero]
    congr 1
    refine List.map_congr_left fun k _ => ?_
    simp only [Function.comp, Nat.succ_eq_add_one, show a + 1 + k = a + (k + 1) by omega]

/-- Bit b of byte k of a little-endian assembly is bit b of the k-th byte (rules R68, R161). -/
theorem fromLE_getLsbD {w : Nat} (bs : List Byte) {k b : Nat} (hb : b < 8) (hk : 8 * k + b < w) :
    (fromLE w bs).getLsbD (8 * k + b) = (bs.getD k 0).getLsbD b := by
  induction bs generalizing k with
  | nil => simp [fromLE]
  | cons x bs ih =>
    rw [fromLE, BitVec.getLsbD_or, BitVec.getLsbD_shiftLeft, BitVec.getLsbD_setWidth]
    cases k with
    | zero =>
      rw [Nat.mul_zero, Nat.zero_add] at hk ⊢
      simp [hb, hk]
    | succ k =>
      have h1 : ¬ 8 * (k + 1) + b < 8 := by omega
      have h2 : 8 * (k + 1) + b - 8 = 8 * k + b := by omega
      have h3 : x.getLsbD (8 * (k + 1) + b) = false := BitVec.getLsbD_of_ge _ _ (by omega)
      simp [h1, h2, h3, hk, ih (k := k) (by omega)]

/-- Byte k of a little-endian assembly is the k-th byte. -/
theorem fromLE_byte {w : Nat} (bs : List Byte) {k : Nat} (hk : 8 * k + 8 ≤ w) :
    (fromLE w bs).extractLsb' (8 * k) 8 = bs.getD k 0 := by
  refine BitVec.eq_of_getLsbD_eq fun j hj => ?_
  rw [BitVec.getLsbD_extractLsb', fromLE_getLsbD bs hj (by omega)]
  simp [hj]

/-- Byte k of a little-endian byte string (rules R68, R162). -/
theorem toLE_getElem? {w n k : Nat} (v : BitVec w) (hk : k < n) : (toLE n v)[k]? = some (v.extractLsb' (8 * k) 8) := by
  simp [toLE, hk]

end Sys2Proof.Machine
end

