-- ==== Sys2Proof/Laws/State.lean ====
section
/-! SUPPORT. One lemma per field per named update of State, so that no proof unfolds a record update. -/

namespace Sys2Proof.Machine

@[simp] theorem accept_lanes (w : Word) (s : State) : (accept w s).lanes = s.lanes := rfl
@[simp] theorem accept_seq (w : Word) (s : State) : (accept w s).seq = .running w := rfl
@[simp] theorem accept_busy (w : Word) (s : State) : (accept w s).busy = true := rfl
@[simp] theorem accept_done (w : Word) (s : State) : (accept w s).done = false := rfl
@[simp] theorem accept_err (w : Word) (s : State) : (accept w s).err = .ok := rfl
@[simp] theorem accept_inLen (w : Word) (s : State) : (accept w s).inLen = s.inLen := rfl
@[simp] theorem accept_size (w : Word) (s : State) : (accept w s).size = s.size := rfl
@[simp] theorem accept_outLen (w : Word) (s : State) : (accept w s).outLen = s.outLen := rfl
@[simp] theorem accept_outCount (w : Word) (s : State) : (accept w s).outCount = s.outCount := rfl
@[simp] theorem accept_mem (w : Word) (s : State) : (accept w s).mem = s.mem := rfl
@[simp] theorem accept_rst (w : Word) (s : State) : (accept w s).rst = s.rst := rfl
@[simp] theorem accept_rdata (w : Word) (s : State) : (accept w s).rdata = s.rdata := rfl
@[simp] theorem accept_cfg (w : Word) (s : State) : (accept w s).cfg = s.cfg := rfl
@[simp] theorem accept_agenda (w : Word) (s : State) : (accept w s).agenda = s.agenda := rfl
@[simp] theorem accept_draws (w : Word) (s : State) : (accept w s).draws = s.draws := rfl

@[simp] theorem complete_lanes (e : ErrCode) (s : State) : (complete e s).lanes = s.lanes := rfl
@[simp] theorem complete_seq (e : ErrCode) (s : State) : (complete e s).seq = .idle := rfl
@[simp] theorem complete_busy (e : ErrCode) (s : State) : (complete e s).busy = false := rfl
@[simp] theorem complete_done (e : ErrCode) (s : State) : (complete e s).done = true := rfl
@[simp] theorem complete_err (e : ErrCode) (s : State) : (complete e s).err = e := rfl
@[simp] theorem complete_inLen (e : ErrCode) (s : State) : (complete e s).inLen = s.inLen := rfl
@[simp] theorem complete_size (e : ErrCode) (s : State) : (complete e s).size = s.size := rfl
@[simp] theorem complete_outLen (e : ErrCode) (s : State) : (complete e s).outLen = s.outLen := rfl
@[simp] theorem complete_outCount_ok (s : State) : (complete .ok s).outCount = s.outCount := rfl
theorem complete_outCount_error {e : ErrCode} (h : e ≠ .ok) (s : State) : (complete e s).outCount = 0 := if_neg h
@[simp] theorem complete_mem (e : ErrCode) (s : State) : (complete e s).mem = s.mem := rfl
@[simp] theorem complete_rst (e : ErrCode) (s : State) : (complete e s).rst = s.rst := rfl
@[simp] theorem complete_rdata (e : ErrCode) (s : State) : (complete e s).rdata = s.rdata := rfl
@[simp] theorem complete_cfg (e : ErrCode) (s : State) : (complete e s).cfg = s.cfg := rfl
@[simp] theorem complete_agenda (e : ErrCode) (s : State) : (complete e s).agenda = s.agenda := rfl
@[simp] theorem complete_draws (e : ErrCode) (s : State) : (complete e s).draws = s.draws := rfl

@[simp] theorem spongeEffect_lanes (p : SpongeCall) (s : State) : (spongeEffect p s).lanes = zeroLanes := rfl
@[simp] theorem spongeEffect_mem (p : SpongeCall) (s : State) :
    (spongeEffect p s).mem = s.mem.writeBytes obufBase (outputForm p.raw (digest p s)) := rfl
@[simp] theorem spongeEffect_outCount (p : SpongeCall) (s : State) :
    (spongeEffect p s).outCount = BitVec.ofNat 32 p.outBytes := rfl
@[simp] theorem spongeEffect_draws (p : SpongeCall) (s : State) : (spongeEffect p s).draws = (readMessage s).2 := rfl
@[simp] theorem spongeEffect_inLen (p : SpongeCall) (s : State) : (spongeEffect p s).inLen = s.inLen := rfl
@[simp] theorem spongeEffect_size (p : SpongeCall) (s : State) : (spongeEffect p s).size = s.size := rfl
@[simp] theorem spongeEffect_outLen (p : SpongeCall) (s : State) : (spongeEffect p s).outLen = s.outLen := rfl
@[simp] theorem spongeEffect_rst (p : SpongeCall) (s : State) : (spongeEffect p s).rst = s.rst := rfl
@[simp] theorem spongeEffect_rdata (p : SpongeCall) (s : State) : (spongeEffect p s).rdata = s.rdata := rfl
@[simp] theorem spongeEffect_cfg (p : SpongeCall) (s : State) : (spongeEffect p s).cfg = s.cfg := rfl
@[simp] theorem spongeEffect_agenda (p : SpongeCall) (s : State) : (spongeEffect p s).agenda = s.agenda := rfl

@[simp] theorem resetEdge_low (s : State) : resetEdge false s = { s with rst := false } := rfl
@[simp] theorem resetEdge_high (s : State) : resetEdge true s =
    { State.resetOf s.cfg with rst := true, rdata := s.rdata, agenda := s.agenda, draws := s.draws } := rfl

@[simp] theorem busy_running {s : State} {w : Word} (h : s.seq = .running w) : s.busy = true := by
  simp [State.busy, h]

@[simp] theorem busy_idle {s : State} (h : s.seq = .idle) : s.busy = false := by
  simp [State.busy, h]

/-- BUSY = 1 exactly when the sequencer holds a command (rule R40). -/
theorem busy_iff_running (s : State) : s.busy = true ↔ ∃ w, s.seq = .running w := by
  unfold State.busy
  cases s.seq <;> simp

end Sys2Proof.Machine
end

