-- ==== Sys2Proof/Laws/Bus.lean ====
section
/-! SUPPORT. What the host can do, said once: the address map by ranges, and the ends a host write has. -/

namespace Sys2Proof.Machine

theorem regionOf_csr {c : Config} {a : Nat} (h : a < 0x20) : regionOf c a = .csr (csrAt (a / 4)) (a % 4) := by
  simp [regionOf, h]

theorem regionOf_lane {c : Config} {a : Nat} (h : 0x100 ≤ a ∧ a < 0x1C8) :
    regionOf c a = .lane ⟨(a - 0x100) / 8, by omega⟩ ((a - 0x100) % 8) := by
  have : ¬ a < 0x20 := by omega
  simp [regionOf, this, h]

theorem inIbuf_iff (c : Config) (a : Nat) : inIbuf c a = true ↔ 0x4000 ≤ a ∧ a < 0x4000 + c.ibufBytes :=
  decide_eq_true_iff

theorem inObuf_iff (c : Config) (a : Nat) : inObuf c a = true ↔ 0x8000 ≤ a ∧ a < 0x8000 + c.obufBytes :=
  decide_eq_true_iff

theorem legal_iff (c : Config) :
    c.legal = true ↔ 1 ≤ c.ibufBytes ∧ c.ibufBytes ≤ 16384 ∧ 128 ≤ c.obufBytes ∧ c.obufBytes ≤ 32768 :=
  decide_eq_true_iff

theorem regionOf_ibuf {c : Config} {a : Nat} (h : inIbuf c a = true) : regionOf c a = .ibuf := by
  have h' := (inIbuf_iff c a).mp h
  have h1 : ¬ a < 0x20 := by omega
  have h2 : ¬ (0x100 ≤ a ∧ a < 0x1C8) := by omega
  simp [regionOf, h1, h2, h]

theorem regionOf_obuf {c : Config} (hc : c.legal = true) {a : Nat} (h : inObuf c a = true) : regionOf c a = .obuf := by
  have h' := (inObuf_iff c a).mp h
  have hc' := (legal_iff c).mp hc
  have h1 : ¬ a < 0x20 := by omega
  have h2 : ¬ (0x100 ≤ a ∧ a < 0x1C8) := by omega
  have h3 : ¬ inIbuf c a = true := fun hi => by
    have := (inIbuf_iff c a).mp hi
    omega
  simp [regionOf, h1, h2, h3, h]

theorem regionOf_reserved {c : Config} {a : Nat} (h1 : ¬ a < 0x20) (h2 : ¬ (0x100 ≤ a ∧ a < 0x1C8))
    (h : (inIbuf c a || inObuf c a) = false) : regionOf c a = .reserved := by
  rw [Bool.or_eq_false_iff] at h
  simp [regionOf, h1, h2, h.1, h.2]

/-- A host write of one byte changes one lane, or one buffer byte, or nothing. -/
theorem writeHostByte_cases (s : State) (a : Nat) (b : Byte) :
    (∃ (i : Fin 25) (k : Nat), writeHostByte s a b = { s with lanes := s.lanes.set i.val (setLaneByte s.lanes[i] k b) i.isLt }) ∨
    ((inIbuf s.cfg a || inObuf s.cfg a) = true ∧ writeHostByte s a b = { s with mem := s.mem.set a b }) ∨
    writeHostByte s a b = s := by
  unfold writeHostByte regionOf
  split
  · rename_i h
    split at h
    · exact .inr (.inr rfl)
    · split at h <;> first | cases h | (split at h <;> first | cases h | (split at h <;> cases h))
  · exact .inl ⟨_, _, rfl⟩
  · rename_i h
    split at h
    · cases h
    · split at h
      · cases h
      · split at h
        · exact .inr (.inl ⟨by simp [*], rfl⟩)
        · split at h <;> cases h
  · rename_i h
    split at h
    · cases h
    · split at h
      · cases h
      · split at h
        · cases h
        · split at h
          · exact .inr (.inl ⟨by simp [*], rfl⟩)
          · cases h
  · exact .inr (.inr rfl)

/-- The ends of a host write: nothing, a CSR written whole while the block is idle, or the bytes one by one. -/
theorem memWrite_cases (s : State) (a : Addr) (n : Size) (v : Word) :
    memWrite s a n v = s ∨
    (s.rst = false ∧ s.busy = false ∧ n = .four ∧ a.toNat % 4 = 0 ∧ a.toNat < 0x20 ∧
      memWrite s a n v = csrWrite (csrAt (a.toNat / 4)) v s) ∨
    (s.rst = false ∧ s.busy = false ∧ a.toNat % n.bytes = 0 ∧ 0x20 ≤ a.toNat ∧
      memWrite s a n v = writeHostBytes s a.toNat (toLE n.bytes v)) := by
  unfold memWrite
  split
  · exact .inl rfl
  · rename_i h
    have hr : s.rst = false ∧ s.busy = false := by
      simpa only [Bool.or_eq_true, not_or, Bool.not_eq_true] using h
    split
    · exact .inl rfl
    · rename_i h2
      have h2' : a.toNat % n.bytes = 0 := by simpa using h2
      split
      · rename_i h3
        cases n with
        | one => exact .inl rfl
        | two => exact .inl rfl
        | four => exact .inr (.inl ⟨hr.1, hr.2, rfl, h2', h3, rfl⟩)
      · exact .inr (.inr ⟨hr.1, hr.2, h2', by omega, rfl⟩)

/-- What a host write of bytes leaves alone: every field but the lanes and the buffer memory. -/
theorem writeHostBytes_frame (s : State) (a : Nat) (bs : List Byte) :
    ∃ L m, writeHostBytes s a bs = { s with lanes := L, mem := m } := by
  induction bs generalizing s a with
  | nil => exact ⟨s.lanes, s.mem, rfl⟩
  | cons b bs ih =>
    obtain ⟨L, m, h⟩ := ih (writeHostByte s a b) (a + 1)
    rcases writeHostByte_cases s a b with ⟨i, k, e⟩ | ⟨_, e⟩ | e <;>
      exact ⟨L, m, by rw [writeHostBytes, h, e]⟩

/-- A host write of bytes keeps the buffer memory canonical and inside the buffers. -/
theorem writeHostBytes_mem {s : State} (hw : s.mem.wf) (hb : s.mem.inBuffers s.cfg = true) (a : Nat) (bs : List Byte) :
    (writeHostBytes s a bs).mem.wf ∧ (writeHostBytes s a bs).mem.inBuffers s.cfg = true := by
  induction bs generalizing s a with
  | nil => exact ⟨hw, hb⟩
  | cons b bs ih =>
    rcases writeHostByte_cases s a b with ⟨i, k, e⟩ | ⟨hx, e⟩ | e
    · rw [writeHostBytes, e]; exact ih (s := { s with lanes := s.lanes.set i.val (setLaneByte s.lanes[i] k b) i.isLt }) hw hb (a + 1)
    · rw [writeHostBytes, e]
      exact ih (s := { s with mem := s.mem.set a b }) (Memory.set_wf hw a b) (Memory.set_inBuffers hb hx b) (a + 1)
    · rw [writeHostBytes, e]; exact ih hw hb (a + 1)

@[simp] theorem hostBytes_length (s : State) (a n d : Nat) : (hostBytes s a n d).1.length = n := by
  induction n generalizing a d with
  | zero => rfl
  | succ n ih => simp [hostBytes, ih]

/-- Reads only ever take draws, never give one back. -/
theorem hostByteDraws_le (s : State) (a d : Nat) : d ≤ hostByteDraws s a d := by
  unfold hostByteDraws Memory.drawsAfter
  split <;> (try split) <;> (try split) <;> omega

/-- While BUSY = 1 a host transaction changes nothing but the bus data lines and the draw count (rules R70, R72). -/
theorem hostTx_busy (t : Tx) {s : State} (h : s.busy = true) : ∃ v d, hostTx t s = { s with rdata := v, draws := d } := by
  cases t with
  | read a n => exact ⟨_, _, rfl⟩
  | write a n v => exact ⟨s.rdata, s.draws, by simp [hostTx, memWrite, h]⟩

/-- Storing byte k of a lane: byte k becomes the stored one, every other byte stays (rule R63). -/
theorem setLaneByte_byte (v : Lane) {k m : Nat} (b : Byte) (hm : m < 8) :
    (setLaneByte v k b).extractLsb' (8 * m) 8 = if m = k then b else v.extractLsb' (8 * m) 8 := by
  have hff : ∀ x, (0xFF#64).getLsbD x = decide (x < 8) := fun x => by
    by_cases hx : x < 64
    · revert x; decide
    · rw [BitVec.getLsbD_of_ge _ _ (by omega)]
      exact (decide_eq_false (by omega)).symm
  refine BitVec.eq_of_getLsbD_eq fun j hj => ?_
  have hmj : 8 * m + j < 64 := by omega
  simp only [setLaneByte, BitVec.getLsbD_extractLsb', BitVec.getLsbD_or, BitVec.getLsbD_and, BitVec.getLsbD_not,
    BitVec.getLsbD_shiftLeft, BitVec.getLsbD_setWidth, hff, hj, hmj, decide_true, Bool.true_and]
  by_cases h : m = k
  · subst h
    have h2 : 8 * m + j - 8 * m = j := by omega
    have h3 : j < 64 := by omega
    simp [h2, hj, h3]
  · rw [if_neg h]
    by_cases h1 : 8 * m + j < 8 * k
    · simp [h1, hj]
    · have h2 : ¬ 8 * m + j - 8 * k < 8 := by omega
      have h3 : b.getLsbD (8 * m + j - 8 * k) = false := BitVec.getLsbD_of_ge _ _ (by omega)
      simp [h1, h2, h3, hj]

end Sys2Proof.Machine
end

