-- ==== Sys2Proof/Laws/Commands.lean ====
section
/-! SUPPORT. What a command can do, said once: the checks of HASH and SHAKE, and the two ends a command has. -/

namespace Sys2Proof.Machine

/-- What passing the buffer checks says (rule R207). -/
theorem bufferChecks_ok {p q : SpongeCall} {s : State} (h : bufferChecks p s = .ok q) :
    q = p ∧ s.inLen.toNat ≤ s.cfg.ibufBytes ∧ p.outBytes ≤ s.cfg.obufBytes := by
  unfold bufferChecks at h
  split at h
  · cases h
  · split at h
    · cases h
    · cases h
      exact ⟨rfl, by omega, by omega⟩

/-- The buffer checks raise no error but 4 and 5. -/
theorem bufferChecks_error {p : SpongeCall} {s : State} {e : ErrCode} (h : bufferChecks p s = .error e) :
    e = .inLenTooLarge ∨ e = .outTooLarge := by
  unfold bufferChecks at h
  split at h
  · cases h; exact .inl rfl
  · split at h
    · cases h; exact .inr rfl
    · cases h

/-- What HASH has checked when it goes on (rules R206, R207). -/
theorem hashOperands_ok {raw : Bool} {s : State} {p : SpongeCall} (h : hashOperands raw s = .ok p) :
    p = hashCall raw s ∧ mdLenLegal s.size = true ∧ s.inLen.toNat ≤ s.cfg.ibufBytes ∧ p.outBytes ≤ s.cfg.obufBytes := by
  unfold hashOperands at h
  split at h
  · obtain ⟨rfl, h1, h2⟩ := bufferChecks_ok h
    exact ⟨rfl, ‹_›, h1, h2⟩
  · cases h

/-- What SHAKE has checked when it goes on (rules R207, R211, R212). -/
theorem shakeOperands_ok {raw : Bool} {s : State} {p : SpongeCall} (h : shakeOperands raw s = .ok p) :
    p = shakeCall raw s ∧ securityLevelLegal s.size = true ∧ outLenLegal s.outLen = true ∧
      s.inLen.toNat ≤ s.cfg.ibufBytes ∧ p.outBytes ≤ s.cfg.obufBytes := by
  unfold shakeOperands at h
  split at h
  · split at h
    · obtain ⟨rfl, h1, h2⟩ := bufferChecks_ok h
      exact ⟨rfl, ‹_›, ‹_›, h1, h2⟩
    · cases h
  · cases h

/-- A check that fails reports an error, never success. -/
theorem hashOperands_error {raw : Bool} {s : State} {e : ErrCode} (h : hashOperands raw s = .error e) : e ≠ .ok := by
  unfold hashOperands at h
  split at h
  · rcases bufferChecks_error h with rfl | rfl <;> simp
  · cases h; simp

/-- A check that fails reports an error, never success. -/
theorem shakeOperands_error {raw : Bool} {s : State} {e : ErrCode} (h : shakeOperands raw s = .error e) : e ≠ .ok := by
  unfold shakeOperands at h
  split at h
  · split at h
    · rcases bufferChecks_error h with rfl | rfl <;> simp
    · cases h; simp
  · cases h; simp

/-- The two ends of a HASH or SHAKE: an error and nothing else, or the whole effect. -/
theorem runSponge_next {c : Except ErrCode SpongeCall} {s t : State} (h : runSponge c s = .next t) :
    (∃ e, c = .error e ∧ t = complete e s) ∨ (∃ p, c = .ok p ∧ t = complete .ok (spongeEffect p s)) := by
  cases c with
  | error e => exact .inl ⟨e, rfl, by cases h; rfl⟩
  | ok p => exact .inr ⟨p, rfl, by cases h; rfl⟩

@[simp] theorem exec_hash (raw : Bool) (s : State) : exec (.hash raw) s = runSponge (hashOperands raw s) s := rfl
@[simp] theorem exec_shake (raw : Bool) (s : State) : exec (.shake raw) s = runSponge (shakeOperands raw s) s := rfl
@[simp] theorem exec_permute (raw : Bool) (s : State) :
    exec (.permute raw) s = .next (complete .ok { s with lanes := keccakF s.lanes }) := rfl
@[simp] theorem exec_clear (raw : Bool) (s : State) :
    exec (.clear raw) s = .next (complete .ok { s with lanes := zeroLanes }) := rfl

/-- Everything a command can do. -/
theorem exec_next {i : Instr} {s t : State} (h : exec i s = .next t) :
    (∃ raw e, i = .hash raw ∧ hashOperands raw s = .error e ∧ t = complete e s) ∨
    (∃ raw p, i = .hash raw ∧ hashOperands raw s = .ok p ∧ t = complete .ok (spongeEffect p s)) ∨
    (∃ raw e, i = .shake raw ∧ shakeOperands raw s = .error e ∧ t = complete e s) ∨
    (∃ raw p, i = .shake raw ∧ shakeOperands raw s = .ok p ∧ t = complete .ok (spongeEffect p s)) ∨
    (∃ raw, i = .permute raw ∧ t = complete .ok { s with lanes := keccakF s.lanes }) ∨
    (∃ raw, i = .clear raw ∧ t = complete .ok { s with lanes := zeroLanes }) := by
  cases i with
  | hash raw =>
    rcases runSponge_next h with ⟨e, hc, rfl⟩ | ⟨p, hc, rfl⟩
    · exact .inl ⟨raw, e, rfl, hc, rfl⟩
    · exact .inr (.inl ⟨raw, p, rfl, hc, rfl⟩)
  | shake raw =>
    rcases runSponge_next h with ⟨e, hc, rfl⟩ | ⟨p, hc, rfl⟩
    · exact .inr (.inr (.inl ⟨raw, e, rfl, hc, rfl⟩))
    · exact .inr (.inr (.inr (.inl ⟨raw, p, rfl, hc, rfl⟩)))
  | permute raw =>
    rw [exec_permute] at h
    exact .inr (.inr (.inr (.inr (.inl ⟨raw, rfl, (Host.Outcome.next.inj h).symm⟩))))
  | clear raw =>
    rw [exec_clear] at h
    exact .inr (.inr (.inr (.inr (.inr ⟨raw, rfl, (Host.Outcome.next.inj h).symm⟩))))

end Sys2Proof.Machine
end

