-- ==== Sys2Proof/Laws/Keccak.lean ====
section
/-! SUPPORT. One lane of each step mapping's result, so that no proof unfolds a vector. -/

namespace Sys2Proof.Machine

@[simp] theorem laneX_laneIdx (x y : Fin 5) : laneX (laneIdx x y) = x := by
  apply Fin.ext
  simp only [laneX, laneIdx]
  omega

@[simp] theorem laneY_laneIdx (x y : Fin 5) : laneY (laneIdx x y) = y := by
  apply Fin.ext
  simp only [laneY, laneIdx]
  omega

@[simp] theorem laneIdx_laneX_laneY (i : Fin 25) : laneIdx (laneX i) (laneY i) = i := by
  apply Fin.ext
  simp only [laneX, laneY, laneIdx]
  omega

/-- Two lane states with the same 25 lanes are equal. -/
theorem lanes_ext {S T : Lanes} (h : ∀ i : Fin 25, S[i] = T[i]) : S = T :=
  Vector.ext fun i hi => h ⟨i, hi⟩

theorem thetaC_get (S : Lanes) (x : Fin 5) : (thetaC S)[x] =
    S[laneIdx x 0] ^^^ S[laneIdx x 1] ^^^ S[laneIdx x 2] ^^^ S[laneIdx x 3] ^^^ S[laneIdx x 4] := by
  simp [thetaC]

theorem thetaD_get (C : Vector Lane 5) (x : Fin 5) : (thetaD C)[x] = C[x - 1] ^^^ rotl64 C[x + 1] 1 := by
  simp [thetaD]

theorem theta_get (S : Lanes) (i : Fin 25) : (theta S)[i] = S[i] ^^^ (thetaD (thetaC S))[laneX i] := by
  simp [theta]

theorem chi_get (S : Lanes) (i : Fin 25) : (chi S)[i] =
    S[i] ^^^ (~~~ S[laneIdx (laneX i + 1) (laneY i)] &&& S[laneIdx (laneX i + 2) (laneY i)]) := by
  simp [chi]

theorem iota_get (S : Lanes) (k : Fin 24) (i : Fin 25) :
    (iota S k)[i] = if i = 0 then S[(0 : Fin 25)] ^^^ roundConstants[k] else S[i] := by
  by_cases h : i = 0
  · subst h; simp [iota]
  · have h' : ¬ (0 = i.val) := fun e => h (Fin.ext e.symm)
    simp [iota, h, h']

end Sys2Proof.Machine
end

