-- ==== Sys2Proof/Laws/PerInstr.lean ====
section
/-! SUPPORT. Statements about every instruction as syntax, one lemma per constructor. -/

namespace Sys2Proof.Laws.ReservedZero

/-- The word of an instruction has its reserved bits [31:5] zero (rule R90) and a legal OP (rule R93). -/
def Statement (i : Instr) : Prop :=
  (encode i).toNat < 32 ∧ 1 ≤ (encode i).toNat % 16 ∧ (encode i).toNat % 16 ≤ 4

theorem hash (raw : Bool) : Statement (.hash raw) := by
  cases raw <;> simp [Statement, encode, cmdWord]

theorem shake (raw : Bool) : Statement (.shake raw) := by
  cases raw <;> simp [Statement, encode, cmdWord]

theorem permute (raw : Bool) : Statement (.permute raw) := by
  cases raw <;> simp [Statement, encode, cmdWord]

theorem clear (raw : Bool) : Statement (.clear raw) := by
  cases raw <;> simp [Statement, encode, cmdWord]

end Sys2Proof.Laws.ReservedZero
end

