-- ==== Sys2Proof/Laws/Sponge.lean ====
section
/-! SUPPORT. The lengths of the sponge's byte strings, and the turns of its two loops. -/

namespace Sys2Proof.Machine

@[simp] theorem toLE_length {w : Nat} (n : Nat) (v : BitVec w) : (toLE n v).length = n := by simp [toLE]

@[simp] theorem leBytes_length (v : Lane) : (leBytes v).length = 8 := toLE_length 8 v

@[simp] theorem blockWord_length {B : List Byte} {i : Nat} (h : 8 * i + 8 ≤ B.length) : (blockWord B i).length = 8 := by
  simp only [blockWord, List.length_take, List.length_drop]
  omega

@[simp] theorem padBlock_length {r : Nat} {tail : List Byte} (h : tail.length ≤ r) (suffix : Byte) :
    (padBlock r suffix tail).length = r := by
  simp [padBlock, h]

/-- Bytes of equal length k from n lanes. -/
theorem flatMap_length_const {α β : Type} (f : α → List β) (k : Nat) (l : List α) (h : ∀ a ∈ l, (f a).length = k) :
    (l.flatMap f).length = l.length * k := by
  induction l with
  | nil => simp
  | cons a l ih =>
    rw [List.flatMap_cons, List.length_append, h a (by simp), ih fun b hb => h b (by simp [hb]), List.length_cons]
    ring

@[simp] theorem emitBlock_length (r : Nat) (S : Lanes) : (emitBlock r S).length = min (r / 8) 25 * 8 := by
  rw [emitBlock, flatMap_length_const leBytes 8 _ fun v _ => leBytes_length v]
  simp

@[simp] theorem hexByte_length (b : Byte) : (hexByte b).length = 2 := rfl

@[simp] theorem outputForm_length (raw : Bool) (D : List Byte) :
    (outputForm raw D).length = if raw then D.length else 2 * D.length := by
  cases raw with
  | true => rfl
  | false =>
    simp only [outputForm, Bool.false_eq_true, if_false]
    rw [flatMap_length_const hexByte 2 D fun b _ => hexByte_length b, Nat.mul_comm]

/-- A turn of the absorb loop while a whole block is left (rule R166). -/
theorem absorbLoop_turn {r fuel : Nat} {S : Lanes} {M : List Byte} (h : r ≤ M.length) :
    absorbLoop r (fuel + 1) S M = absorbLoop r fuel (keccakF (absorbBlock r S (M.take r))) (M.drop r) := by
  rw [absorbLoop, if_pos h]

/-- The end of the absorb loop: less than a block is left (rule R166). -/
theorem absorbLoop_end {r fuel : Nat} {S : Lanes} {M : List Byte} (h : M.length < r) :
    absorbLoop r fuel S M = (S, M) := by
  cases fuel with
  | zero => rfl
  | succ fuel => rw [absorbLoop, if_neg (by omega)]

theorem absorbBlock_get (r : Nat) (S : Lanes) (B : List Byte) (i : Fin 25) :
    (absorbBlock r S B)[i] = if i.val < r / 8 then S[i] ^^^ le64 (blockWord B i) else S[i] := by
  simp [absorbBlock]

end Sys2Proof.Machine
end

