-- ==== Sys2Proof/Laws/Step.lean ====
section
/-! SUPPORT. What one step can do, said once. -/

namespace Sys2Proof.Machine

theorem blockTurn_inReset {s : State} (h : s.rst = true) : blockTurn s = .next s := by
  simp [blockTurn, h]

theorem blockTurn_idle {s : State} (h : s.seq = .idle) : blockTurn s = .next s := by
  unfold blockTurn
  split
  · rfl
  · rw [h]

/-- The turn of a block that is idle or in reset changes nothing (rules R286, R300). -/
theorem blockTurn_hold {s : State} (h : s.busy = false ∨ s.rst = true) : blockTurn s = .next s := by
  rcases h with h | h
  · cases hs : s.seq with
    | idle => exact blockTurn_idle hs
    | running w => exact absurd (busy_running hs) (by simp [h])
  · exact blockTurn_inReset h

theorem blockTurn_running {s : State} {w : Word} (hr : s.rst = false) (h : s.seq = .running w) :
    blockTurn s = execDecoded (decode w) s := by
  simp [blockTurn, hr, h]

theorem step_agendaEmpty {s : State} (h : s.agenda = []) : step s = blockTurn s := by
  simp [step, runAgenda, h]

theorem step_agenda {s : State} {e : Event} {rest : List Event} (h : s.agenda = e :: rest) :
    step s = runEvent e { s with agenda := rest } := by
  simp [step, runAgenda, h]

/-- What the block's turn can do: hold, complete a command, or complete a reserved word. -/
theorem blockTurn_next {s t : State} (h : blockTurn s = .next t) :
    t = s ∨
    (∃ w i, s.rst = false ∧ s.seq = .running w ∧ decode w = .instr i ∧ exec i s = .next t) ∨
    (∃ w why, s.rst = false ∧ s.seq = .running w ∧ decode w = .illegal why ∧ t = complete .illegalCmd s) := by
  by_cases hr : s.rst = true
  · rw [blockTurn_inReset hr] at h
    exact .inl (Host.Outcome.next.inj h).symm
  · rw [Bool.not_eq_true] at hr
    cases hs : s.seq with
    | idle =>
      rw [blockTurn_idle hs] at h
      exact .inl (Host.Outcome.next.inj h).symm
    | running w =>
      rw [blockTurn_running hr hs] at h
      cases hd : decode w with
      | instr i =>
        rw [hd] at h
        exact .inr (.inl ⟨w, i, hr, rfl, hd, h⟩)
      | illegal why =>
        rw [hd] at h
        exact .inr (.inr ⟨w, why, hr, rfl, hd, (Host.Outcome.next.inj h).symm⟩)

/-- What a step can do: a host transaction, a reset edge, or the block's turn, on the state with the event taken off. -/
theorem step_next {s t : State} (h : step s = .next t) :
    (s.agenda = [] ∧ blockTurn s = .next t) ∨
    (∃ tx rest, s.agenda = .host tx :: rest ∧ t = hostTx tx { s with agenda := rest }) ∨
    (∃ level rest, s.agenda = .reset level :: rest ∧ t = resetEdge level { s with agenda := rest }) ∨
    (∃ rest, s.agenda = .block :: rest ∧ blockTurn { s with agenda := rest } = .next t) := by
  cases ha : s.agenda with
  | nil =>
    rw [step_agendaEmpty ha] at h
    exact .inl ⟨rfl, h⟩
  | cons e rest =>
    rw [step_agenda ha] at h
    cases e with
    | host tx => exact .inr (.inl ⟨tx, rest, rfl, (Host.Outcome.next.inj h).symm⟩)
    | block => exact .inr (.inr (.inr ⟨rest, rfl, h⟩))
    | reset level => exact .inr (.inr (.inl ⟨level, rest, rfl, (Host.Outcome.next.inj h).symm⟩))

/-- A placed instruction is the accepted command, and the block has the next turn. -/
theorem step_withFetchWord (s : State) (nbits w : Nat) :
    step (s.withFetchWord nbits w) =
      blockTurn { accept (BitVec.ofNat 32 (w % 2 ^ nbits)) s with rst := false } :=
  rfl

end Sys2Proof.Machine
end

