-- ==== Sys2Proof/Tests/Slice0.lean ====
section
/-! SUPPORT. The model's own tests. Part 1: the well-formedness checks refuse ill-formed terms. Part 2: words written out from
the encodings of 30_encoding.md. Part 3: single steps with the values of 95_test_vectors.md (the vector is named at each).
Part 4: witnesses, concrete inputs that meet the hypotheses of each statement. -/

namespace Sys2Proof.Tests

open Sys2Proof Sys2Proof.Machine

/-- The block after reset with the three parameter CSRs set. -/
def withParams (size inLen outLen : Word) : State := { State.reset with size := size, inLen := inLen, outLen := outLen }

/-- After `LOADMSG "abc"` and `SETSIZE n`. -/
def withAbc (size : Word) : State :=
  { withParams size 3 0 with mem := [(0x4000, 0x61), (0x4001, 0x62), (0x4002, 0x63)] }

/-- The block running the command word w. -/
def running (w : Word) (s : State) : State := { s with seq := .running w }

/-- One field of the next state, if there is one. -/
def after {α : Type} (f : State → α) (o : Host.Outcome State Fault Refusal) : Option α :=
  match o with
  | .next t => some (f t)
  | .fault _ => none
  | .refused _ => none

/-- The state with one lane set and the others zero. -/
def oneLane (i : Fin 25) (v : Lane) : Lanes := zeroLanes.set i v

/-! Part 1. Ill-formed terms. Every command is well formed (rule R92), so the checks with content are on the configuration and on
the bus values. -/

theorem test_wf_ibuf_zero : Config.legal { ibufBytes := 0, obufBytes := 1024 } = false := by decide
theorem test_wf_ibuf_too_large : Config.legal { ibufBytes := 16385, obufBytes := 1024 } = false := by decide
theorem test_wf_obuf_too_small : Config.legal { ibufBytes := 4096, obufBytes := 127 } = false := by decide
theorem test_wf_obuf_too_large : Config.legal { ibufBytes := 4096, obufBytes := 32769 } = false := by decide
theorem test_wf_bounds_legal :
    Config.legal { ibufBytes := 1, obufBytes := 128 } = true ∧ Config.legal { ibufBytes := 16384, obufBytes := 32768 } = true := by
  decide
theorem test_wf_one_byte_value : (Tx.write 0x4000 .one 0x100).wf = false ∧ (Tx.write 0x4000 .one 0xFF).wf = true := by decide
theorem test_wf_two_byte_value : (Tx.write 0x4000 .two 0x10000).wf = false ∧ (Tx.write 0x4000 .two 0xFFFF).wf = true := by decide
theorem test_wf_event : (Event.host (.write 0x4000 .one 0x100)).wf = false ∧ (Event.reset true).wf = true := by decide
theorem test_wf_instr : (Instr.hash true).wf = true ∧ (Instr.clear false).wf = true := by decide

/-! Part 2. Decoding: RSV, RAW and OP written out bit by bit (rules R90, R93; vectors V-D). -/

theorem test_decode_hash :
    decode (0b000000000000000000000000000#27 ++ 0b0#1 ++ 0b0001#4) = .instr (.hash false) ∧
    decode (0b000000000000000000000000000#27 ++ 0b1#1 ++ 0b0001#4) = .instr (.hash true) := by decide
theorem test_decode_shake :
    decode (0b000000000000000000000000000#27 ++ 0b0#1 ++ 0b0010#4) = .instr (.shake false) ∧
    decode (0b000000000000000000000000000#27 ++ 0b1#1 ++ 0b0010#4) = .instr (.shake true) := by decide
theorem test_decode_permute :
    decode (0b000000000000000000000000000#27 ++ 0b0#1 ++ 0b0011#4) = .instr (.permute false) ∧
    decode (0b000000000000000000000000000#27 ++ 0b1#1 ++ 0b0011#4) = .instr (.permute true) := by decide
theorem test_decode_clear :
    decode (0b000000000000000000000000000#27 ++ 0b0#1 ++ 0b0100#4) = .instr (.clear false) ∧
    decode (0b000000000000000000000000000#27 ++ 0b1#1 ++ 0b0100#4) = .instr (.clear true) := by decide
theorem test_decode_reserved :
    decode 0x00000000 = .illegal .reservedOp ∧ decode 0x0000000F = .illegal .reservedOp ∧
    decode 0x00000010 = .illegal .reservedOp ∧ decode 0x00000015 = .illegal .reservedOp ∧
    decode 0x00000020 = .illegal .reservedBits ∧ decode 0x00000101 = .illegal .reservedBits ∧
    decode 0xFFFFFFFF = .illegal .reservedBits := by decide
theorem test_encode : encode (.hash true) = 0x00000011 ∧ encode (.shake false) = 0x00000002 ∧
    encode (.permute false) = 0x00000003 ∧ encode (.clear true) = 0x00000014 := by decide
theorem test_decode_table_word : decodeTableWord 32 0x12 = some (.shake true) ∧ decodeTableWord 32 0x22 = none := by decide

/-! Part 3. Vectors. -/

/-- V-R. -/
theorem test_rotl64 : rotl64 0x8000000000000001 1 = 0x0000000000000003 ∧ rotl64 0x0000000000000001 63 = 0x8000000000000000 ∧
    rotl64 0x0123456789ABCDEF 0 = 0x0123456789ABCDEF ∧ rotl64 0x0123456789ABCDEF 64 = 0x0123456789ABCDEF ∧
    rotl64 0x0123456789ABCDEF 62 = 0xC048D159E26AF37B := by decide
/-- V-T. -/
theorem test_theta : theta (oneLane 0 1) =
    #v[1, 1, 0, 0, 2, 0, 1, 0, 0, 2, 0, 1, 0, 0, 2, 0, 1, 0, 0, 2, 0, 1, 0, 0, 2] := by decide +kernel
/-- V-RP, S[i] = i. -/
theorem test_rhoPi : rhoPi (Vector.ofFn fun i => BitVec.ofNat 64 i.val) =
    #v[0x0, 0x600000000000, 0x600000000000, 0x2400000, 0x60000, 0x30000000, 0x900000, 0x50, 0x2000000000000,
      0xC000000000000002, 0x2, 0x1C0, 0x1A000000, 0x1300, 0x500000, 0x20000000, 0x5000000000, 0x2C00, 0x88000,
      0x1700000000000000, 0x8000000000000000, 0x400000000000000, 0x70000000000, 0x1E0000000000, 0x54] := by decide +kernel
/-- V-C. -/
theorem test_chi : chi #v[0x1, 0x0, 0xFF, 0x0F, 0xF0, 0, 0, 0, 0, 0, 0, 0, 0, 0, 0, 0, 0, 0, 0, 0, 0, 0, 0, 0, 0] =
    #v[0xFE, 0x0, 0x0F, 0x0E, 0xF0, 0, 0, 0, 0, 0, 0, 0, 0, 0, 0, 0, 0, 0, 0, 0, 0, 0, 0, 0, 0] := by decide +kernel
/-- V-I. -/
theorem test_iota : iota zeroLanes 23 = oneLane 0 0x8000000080008008 ∧ keccakRound zeroLanes 0 = oneLane 0 1 := by
  decide +kernel
/-- V-L. -/
theorem test_le64 : le64 [1, 2, 3, 4, 5, 6, 7, 8] = 0x0807060504030201 ∧
    leBytes 0xF1258F7940E1DDE7 = [0xE7, 0xDD, 0xE1, 0x40, 0x79, 0x8F, 0x25, 0xF1] := by decide
/-- V-P2 and V-P4, the collision of the two marks. -/
theorem test_pad_collision : (padBlock 136 0x01 (List.replicate 135 0))[135]? = some 0x81 ∧
    (padBlock 168 0x1F (List.replicate 167 0))[167]? = some 0x9F := by decide +kernel
/-- V-P6. -/
theorem test_pad : padBlock 144 0x01 [0, 0, 0] = [0, 0, 0, 0x01] ++ List.replicate 139 0 ++ [0x80] := by decide +kernel
/-- V-A. -/
theorem test_absorb : absorbBlock 136 zeroLanes ([0x61, 0x62, 0x63, 0x01] ++ List.replicate 131 0 ++ [0x80]) =
    (oneLane 0 0x0000000001636261).set 16 0x8000000000000000 := by decide +kernel
/-- Section 2.4. -/
theorem test_limbs : Limbs.rotl (Limbs.unpack 0x0123456789ABCDEF) 44 = ⟨0xBCDE, 0xF012, 0x3456, 0x789A⟩ ∧
    (Limbs.rotl (Limbs.unpack 0x0123456789ABCDEF) 20).pack = 0x56789ABCDEF01234 := by decide
/-- V-K and V-F: PERMUTE of the zero state. -/
theorem test_permute : after (fun t => (t.lanes[0], t.lanes[1], t.lanes[24], t.status)) (exec (.permute false) State.reset) =
    some (0xF1258F7940E1DDE7, 0x84D5CCF933C0478A, 0xEAF1FF7B5CECA249, 0x00000002) := by decide +kernel
/-- V-K: CLEAR, RAW ignored. -/
theorem test_clear : after (fun t => (t.lanes, t.status)) (exec (.clear true) { State.reset with lanes := oneLane 7 5 }) =
    some (zeroLanes, 0x00000002) := by decide +kernel
/-- V-H4 in hexadecimal mode: OBUF[0..7] is "4e03657a", OUT_COUNT 64. -/
theorem test_hash_abc : after (fun t => (t.mem.readBytes 0x8000 8 0, t.outCount)) (exec (.hash false) (withAbc 256)) =
    some (([0x34, 0x65, 0x30, 0x33, 0x36, 0x35, 0x37, 0x61], 0), 64) := by decide +kernel
/-- V-E3: SIZE = 0x80000100. -/
theorem test_hash_error : after State.status (exec (.hash true) (withParams 0x80000100 0 0)) = some 0x00000012 := by decide
/-- V-X3: seven bytes of SHAKE128 of the empty message. -/
theorem test_shake_empty : after (fun t => (t.mem.map Prod.snd, t.outCount)) (exec (.shake true) (withParams 128 0 56)) =
    some ([0x7F, 0x9C, 0x2B, 0xA4, 0xE8, 0x8F, 0x82], 7) := by decide +kernel
/-- V-E5, V-E8, V-E10, V-E12: which of several errors SHAKE reports. -/
theorem test_shake_errors :
    after State.status (exec (.shake false) (withParams 192 0xFFFFFFFF 7)) = some 0x00000022 ∧
    after State.status (exec (.shake true) (withParams 128 5000 12)) = some 0x00000032 ∧
    after State.status (exec (.shake true) (withParams 256 4097 8200)) = some 0x00000042 ∧
    after State.status (exec (.shake false) (withParams 128 0 4104)) = some 0x00000052 := by decide
/-- V-E18: a reserved word. -/
theorem test_illegal : after State.status (step (running 0x00000021 State.reset)) = some 0x00000062 := by decide
/-- V-B1, V-B2, V-B3, V-B7, V-B9. -/
theorem test_bus_reads :
    (memRead State.reset 0x0018 .four).1 = 0x00001000 ∧ (memRead State.reset 0x001C .four).1 = 0x00000400 ∧
    (memRead State.reset 0x0000 .four).1 = 0 ∧ (memRead State.reset 0x0002 .four).1 = 0 ∧
    (memRead State.reset 0x0020 .four).1 = 0 ∧ (memRead State.reset 0x01C8 .four).1 = 0 ∧
    (memRead State.reset 0x5000 .four).1 = 0 := by decide
/-- V-B4, V-B5, V-B6, V-B8, V-B13. -/
theorem test_bus_writes :
    hostTx (.write 0x0000 .one 0x01) State.reset = State.reset ∧
    (memRead (hostTx (.write 0x000C .four 0x100) State.reset) 0x000D .one).1 = 0x01 ∧
    hostTx (.write 0x000C .two 0x0200) State.reset = State.reset ∧
    hostTx (.write 0x4001 .four 0x11223344) State.reset = State.reset ∧
    hostTx (.write 0x0004 .four 0xFFFFFFFF) State.reset = State.reset := by decide
/-- V-B10. -/
theorem test_bus_ibuf : (memRead (hostTx (.write 0x4000 .four 0x64636261) State.reset) 0x4002 .one).1 = 0x63 := by decide
/-- V-B12. -/
theorem test_bus_state_window :
    (hostTx (.write 0x0104 .four 0x08070605) (hostTx (.write 0x0100 .four 0x04030201) State.reset)).lanes =
      oneLane 0 0x0807060504030201 := by decide +kernel
/-- Section 2.6: a HASH issued at once after reset. -/
theorem test_reset_then_hash : after State.status (step (State.reset.withFetchWord 32 0x00000001)) = some 0x00000012 := by
  decide
/-- Program P6's write in the BUSY window is lost (rule R70). -/
theorem test_busy_write : hostTx (.write 0x000C .four 512) (running 0x11 (withParams 256 0 0)) = running 0x11 (withParams 256 0 0) := by
  decide
/-- The script notation: `HASHN 256, raw` (rule R99). -/
theorem test_script_hashN : hashN 256 true 1 0 =
    [.write .four 0x000C 256, .write .four 0x0000 0x00000011, .label 1, .read .four 0x0004 0, .bset 0 0 1] := by decide

/-! Part 4. Witnesses: inputs that meet the hypotheses of a statement together, each clause at the ends of its range. -/

theorem witness_DecodeExactlyTheEncodedWord : decode (encode (.shake true)) = .instr (.shake true) := by decide

theorem witness_ReservedWordsCompleteAsIllegal :
    (∀ w ∈ [(0x00000000 : Word), 0x00000005, 0x0000000F, 0x00000020, 0x80000003, 0xFFFFFFFF],
      (w.toNat % 16 = 0 ∨ 5 ≤ w.toNat % 16 ∨ 32 ≤ w.toNat) ∧ (running w State.reset).rst = false ∧
        (running w State.reset).seq = .running w ∧ (running w State.reset).agenda = [] ∧
        { running w State.reset with agenda := [.block, .block] }.agenda = .block :: [.block]) ∧
    (∀ w ∈ [(0x00000001 : Word), 0x00000004, 0x00000011, 0x00000014],
      1 ≤ w.toNat % 16 ∧ w.toNat % 16 ≤ 4 ∧ w.toNat < 32) := by
  refine ⟨fun w h => ?_, fun w h => ?_⟩
  · fin_cases h <;> exact ⟨by decide, rfl, rfl, rfl, rfl⟩
  · fin_cases h <;> decide

theorem witness_StepRunsTheDecodedCommand :
    (running 0x3 State.reset).rst = false ∧ (running 0x3 State.reset).seq = .running 0x3 ∧
    decode 0x3 = .instr (.permute false) ∧ (running 0x3 State.reset).agenda = [] ∧
    { running 0x3 State.reset with agenda := [.block, .host (.read 0 .four)] }.agenda =
      .block :: [.host (.read 0 .four)] ∧
    { State.reset with agenda := [.host (.write 0x0008 .four 3), .block] }.agenda =
      .host (.write 0x0008 .four 3) :: [.block] ∧
    (State.reset.busy = false ∧ State.reset.agenda = []) ∧
    ({ running 0x3 State.reset with rst := true, agenda := [.block] }.rst = true ∧
      { running 0x3 State.reset with rst := true, agenda := [.block] }.agenda = .block :: []) := by decide

theorem witness_RotationMovesEachBit : (0 : Nat) < 64 ∧ (63 : Nat) < 64 := by decide

theorem witness_IotaChangesLaneZeroOnly : (1 : Fin 25) ≠ 0 ∧ (24 : Fin 25) ≠ 0 := by decide

theorem witness_KeccakFIsInjective : keccakF zeroLanes = keccakF zeroLanes := rfl

/-- The 64-bit datapath itself. -/
def lanes64 : Datapath Lane where
  xor a b := a ^^^ b
  and a b := a &&& b
  not a := ~~~ a
  rotl := rotl64
  load := le64
  store := leBytes
  ofLane v := v
  toLane v := v

theorem witness_FaithfulDatapathsAreBitIdentical : lanes64.Faithful where
  ofLane _ := rfl
  xor _ _ := rfl
  and _ _ := rfl
  not _ := rfl
  rotl _ _ _ := rfl
  load _ _ := rfl
  store _ := rfl

theorem witness_LaneBytesRoundTrip : ([1, 2, 3, 4, 5, 6, 7, 8] : List Byte).length = 8 := by decide

theorem witness_AbsorbXorsTheRateLanesOnly :
    (List.replicate 136 (1 : Byte)).length = 136 ∧ (0 : Fin 25).val < 136 / 8 ∧ (16 : Fin 25).val < 136 / 8 ∧
    136 / 8 ≤ (17 : Fin 25).val ∧ 136 / 8 ≤ (24 : Fin 25).val :=
  ⟨List.length_replicate, by decide, by decide, by decide, by decide⟩

theorem witness_AbsorbTakesWholeBlocksThenThePad : (1 : Nat) ≤ 72 ∧ (1 : Nat) ≤ 168 := by decide

theorem witness_PaddedBlockBytes :
    ([] : List Byte).length < 72 ∧ (List.replicate 71 (1 : Byte)).length < 72 ∧ (0 : Nat) < 72 ∧ (71 : Nat) < 72 := by decide

theorem witness_PaddingIsInjective :
    ([1, 2] : List Byte).length < 72 ∧ ([1, 2] : List Byte).length = ([1, 2] : List Byte).length ∧
    padBlock 72 0x01 [1, 2] = padBlock 72 0x01 [1, 2] := ⟨by decide, rfl, rfl⟩

theorem witness_SpongeOutputBytes :
    (256 ∈ [256, 448, 512, 768, 1024] ∧ 1024 ∈ [256, 448, 512, 768, 1024]) ∧ (0 < 8 / 8 ∧ 31 < 256 / 8) := by decide

theorem witness_ShorterOutputIsAPrefix : 512 ∈ [256, 448, 512, 768, 1024] ∧ 0 ≤ 8 ∧ 256 ≤ 1600 := by decide

theorem witness_MessageIsIbufAsStored :
    0 < (withAbc 256).inLen.toNat ∧ 2 < (withAbc 256).inLen.toNat ∧
    (withAbc 256).mem.get? (0x4000 + 0) = some 0x61 ∧ (withAbc 256).mem.get? (0x4000 + 2) = some 0x63 ∧
    3 < (withParams 256 4 0).inLen.toNat ∧ (withParams 256 4 0).mem.get? (0x4000 + 3) = none := by decide

theorem witness_HashResult : ∀ size ∈ [(224 : Word), 256, 384, 512], ∀ inLen ∈ [(0 : Word), 4096],
    (withParams size inLen 0).cfg.legal = true ∧ (withParams size inLen 0).size.toNat ∈ [224, 256, 384, 512] ∧
    (withParams size inLen 0).inLen.toNat ≤ (withParams size inLen 0).cfg.ibufBytes := by
  intro size hs inLen hi
  fin_cases hs <;> fin_cases hi <;> decide

theorem witness_HashErrors :
    (withParams 255 0 0).cfg.legal = true ∧ (withParams 255 0 0).size.toNat ∉ [224, 256, 384, 512] ∧
    (withParams 256 4097 0).size.toNat ∈ [224, 256, 384, 512] ∧
    (withParams 256 4097 0).cfg.ibufBytes < (withParams 256 4097 0).inLen.toNat ∧
    exec (.hash true) (withParams 255 0 0) = .next (complete .unsupportedMdLen (withParams 255 0 0)) :=
  ⟨by decide, by decide, by decide, by decide, rfl⟩

theorem witness_ShakeResult : ∀ size ∈ [(128 : Word), 256], ∀ outLen ∈ [(8 : Word), 8192],
    let s := withParams size 4096 outLen
    s.size.toNat ∈ [128, 256] ∧ s.outLen.toNat ≠ 0 ∧ s.outLen.toNat % 8 = 0 ∧ s.inLen.toNat ≤ s.cfg.ibufBytes ∧
    (if true then s.outLen.toNat / 8 else 2 * (s.outLen.toNat / 8)) ≤ s.cfg.obufBytes := by
  intro size hs outLen ho
  fin_cases hs <;> fin_cases ho <;> decide

theorem witness_ShakeErrors :
    (withParams 192 0 8).size.toNat ∉ [128, 256] ∧
    ((withParams 128 0 0).size.toNat ∈ [128, 256] ∧ (withParams 128 0 0).outLen.toNat = 0) ∧
    ((withParams 256 0 7).size.toNat ∈ [128, 256] ∧ (withParams 256 0 7).outLen.toNat % 8 ≠ 0) ∧
    ((withParams 128 4097 8).outLen.toNat ≠ 0 ∧ (withParams 128 4097 8).outLen.toNat % 8 = 0 ∧
      (withParams 128 4097 8).cfg.ibufBytes < (withParams 128 4097 8).inLen.toNat) ∧
    ((withParams 128 4096 8200).inLen.toNat ≤ (withParams 128 4096 8200).cfg.ibufBytes ∧
      (withParams 128 4096 8200).cfg.obufBytes < (withParams 128 4096 8200).outLen.toNat / 8) := by decide

theorem witness_ErrorChangesOnlyStatusAndCount :
    ∃ t, exec (.shake false) (withParams 192 0 8) = .next t ∧ t.err ≠ .ok :=
  ⟨_, rfl, by decide⟩

/-- One output byte is there, so that the clauses over output bytes speak of something. -/
theorem witness_OutputFormInObuf :
    ∃ t u, (withAbc 256).cfg.legal = true ∧ exec (.hash true) (withAbc 256) = .next t ∧ t.err = .ok ∧
      exec (.hash false) (withAbc 256) = .next u ∧ u.err = .ok ∧
      0 < (sponge (readMessage (withAbc 256)).1 512 256 0x01).length :=
  ⟨_, _, by decide, rfl, rfl, rfl, rfl, by decide +kernel⟩

theorem witness_HexOutputEncodesRawOutput :
    ∃ t u, (withParams 128 0 8).cfg.legal = true ∧ exec (.shake true) (withParams 128 0 8) = .next t ∧
      exec (.shake false) (withParams 128 0 8) = .next u ∧ t.err = .ok ∧ u.err = .ok ∧ 0 < t.outCount.toNat :=
  ⟨_, _, by decide, rfl, rfl, rfl, rfl, by decide⟩

theorem witness_HexOutputEncodesRawOutput_hash :
    ∃ t u, (withAbc 512).cfg.legal = true ∧ exec (.hash true) (withAbc 512) = .next t ∧
      exec (.hash false) (withAbc 512) = .next u ∧ t.err = .ok ∧ u.err = .ok ∧ 63 < t.outCount.toNat :=
  ⟨_, _, by decide, rfl, rfl, rfl, rfl, by decide⟩

theorem witness_OutputLengthLaws :
    ∃ t u, (withParams 224 0 0).cfg.legal = true ∧ exec (.hash false) (withParams 224 0 0) = .next t ∧ t.err = .ok ∧
      exec (.hash true) (withParams 512 0 0) = .next u ∧ u.err = .ok :=
  ⟨_, _, by decide, rfl, rfl, rfl, rfl⟩

theorem witness_OutputLengthLaws_shake :
    ∃ t u, (withParams 128 0 4096).cfg.legal = true ∧ exec (.shake false) (withParams 128 0 4096) = .next t ∧ t.err = .ok ∧
      exec (.shake true) (withParams 256 0 8192) = .next u ∧ u.err = .ok :=
  ⟨_, _, by decide, rfl, rfl, rfl, rfl⟩

theorem witness_SpongeCommandsIgnoreTheLanes :
    ∃ t, exec (.hash true) { withAbc 256 with lanes := oneLane 3 9 } = .next t ∧ t.err = .ok :=
  ⟨_, rfl, rfl⟩

/-- Two PERMUTE commands in a row. -/
def twoPermutes : Nat → State
  | 0 => State.reset
  | k + 1 => complete .ok { twoPermutes k with lanes := keccakF (twoPermutes k).lanes }

theorem witness_PermutesInARow : ∀ k, k < 2 → exec (.permute false) (twoPermutes k) = .next (twoPermutes (k + 1)) :=
  fun _ _ => rfl

theorem witness_CommandFrame :
    ∃ t u, (withAbc 512).cfg.legal = true ∧ exec (.hash true) (withAbc 512) = .next t ∧
      exec (.hash true) (withAbc 511) = .next u ∧ u.err ≠ .ok ∧ 0x7FFF < 0x8000 ∧
      0x8000 + t.outCount.toNat ≤ 0x8040 :=
  ⟨_, _, by decide, rfl, rfl, by decide, by decide, by decide⟩

theorem witness_CommandFrame_permute :
    ∃ t u, (withAbc 512).cfg.legal = true ∧ exec (.permute true) (withAbc 512) = .next t ∧
      exec (.clear false) (withAbc 512) = .next u :=
  ⟨_, _, by decide, rfl, rfl⟩

theorem witness_CmdWriteIsAccepted :
    (State.reset.busy = false ∧ State.reset.rst = false) ∧ (running 0x1 State.reset).busy = true ∧
    (resetEdge true State.reset).rst = true := by decide

theorem witness_CsrReadValues : (running 0x1 (withParams 256 3 8)).rst = false := by decide

theorem witness_CsrWriteEffects : (withParams 256 3 8).rst = false ∧ (withParams 256 3 8).busy = false := by decide

theorem witness_SubWordCsrAccess :
    (0x0000 : Addr).toNat < 0x20 ∧ (0x001F : Addr).toNat < 0x20 ∧ State.reset.rst = false ∧ (0x001E : Addr).toNat % 2 = 0 := by
  decide

/-- A word of IBUF with one byte unwritten, and unwritten OBUF bytes, idle and BUSY, so that some of the bytes read are draws. -/
theorem witness_ReadIsLittleEndian :
    (withAbc 256).rst = false ∧ (running 0x1 (withAbc 256)).rst = false ∧ (0x4000 : Addr).toNat % Size.four.bytes = 0 ∧
    (0x83FE : Addr).toNat % Size.two.bytes = 0 ∧ (0xFFFF : Addr).toNat % Size.one.bytes = 0 ∧
    0 < Size.one.bytes ∧ 3 < Size.four.bytes := by decide

/-- The last word of IBUF and the one after it, in a build whose IBUF ends inside a word. -/
theorem witness_BufferWriteStoresEachByte :
    let s : State := { State.reset with cfg := { ibufBytes := 4094, obufBytes := 1024 } }
    s.cfg.legal = true ∧ s.rst = false ∧ s.busy = false ∧ (0x4FFC : Addr).toNat % Size.four.bytes = 0 ∧
    0x1C8 ≤ (0x4FFC : Addr).toNat ∧ (inIbuf s.cfg (0x4FFC + 1) || inObuf s.cfg (0x4FFC + 1)) = true ∧
    (inIbuf s.cfg (0x4FFC + 2) || inObuf s.cfg (0x4FFC + 2)) = false ∧ 0x4FFB < (0x4FFC : Addr).toNat ∧
    (0x4FFC : Addr).toNat + Size.four.bytes ≤ 0x5000 := by decide

/-- The first byte, the last half and the last word of the window. -/
theorem witness_StateWindowBytes :
    State.reset.rst = false ∧ State.reset.busy = false ∧
    ((0x0100 : Addr).toNat % Size.one.bytes = 0 ∧ 0x100 ≤ (0x0100 : Addr).toNat ∧ (0x0100 : Addr).toNat < 0x1C8) ∧
    ((0x01C6 : Addr).toNat % Size.two.bytes = 0 ∧ (0x01C6 : Addr).toNat < 0x1C8) ∧
    ((0x01C4 : Addr).toNat % Size.four.bytes = 0 ∧ (0x01C4 : Addr).toNat ≤ 0x100 + 8 * (24 : Fin 25).val + 7 ∧
      0x100 + 8 * (24 : Fin 25).val + 7 < (0x01C4 : Addr).toNat + Size.four.bytes ∧
      0x100 + 8 * (24 : Fin 25).val + 3 < (0x01C4 : Addr).toNat) := by decide

/-- The first and the last access of each reserved range. -/
theorem witness_ReservedBytes :
    State.reset.cfg.legal = true ∧ State.reset.rst = false ∧
    (∀ p ∈ [((0x0020 : Addr), Size.four), (0x00FE, .two), (0x01C8, .four), (0x3FFF, .one), (0x5000, .two), (0x7FFC, .four),
        (0x8400, .one), (0xFFFC, .four)],
      p.1.toNat % p.2.bytes = 0 ∧ ∀ x, p.1.toNat ≤ x → x < p.1.toNat + p.2.bytes →
        (0x20 ≤ x ∧ x < 0x100) ∨ (0x1C8 ≤ x ∧ x < 0x4000) ∨ (0x4000 + 4096 ≤ x ∧ x < 0x8000) ∨ 0x8000 + 1024 ≤ x) ∧
    State.reset.cfg.ibufBytes = 4096 ∧ State.reset.cfg.obufBytes = 1024 := by
  refine ⟨by decide, rfl, fun p hp => ?_, rfl, rfl⟩
  fin_cases hp <;> exact ⟨by decide, fun x (h1 : _ ≤ x) (h2 : x < _ + _) => by simp [Size.bytes] at h1 h2; omega⟩

theorem witness_MisalignedAccess :
    (0x4001 : Addr).toNat % Size.two.bytes ≠ 0 ∧ (0x0002 : Addr).toNat % Size.four.bytes ≠ 0 ∧
    (0xFFFF : Addr).toNat % Size.four.bytes ≠ 0 ∧ State.reset.rst = false := by decide

theorem witness_BusyWindow :
    let s := running 0x1 (withAbc 256)
    s.cfg.legal = true ∧ s.rst = false ∧ s.busy = true ∧ (0x001F : Addr).toNat < 0x20 ∧
    (inIbuf s.cfg (0x4002 : Addr).toNat = true ∧ s.mem.get? (0x4002 : Addr).toNat = some 0x63) ∧
    (0x100 ≤ (0x0100 : Addr).toNat ∧ (0x01C7 : Addr).toNat < 0x1C8) ∧ inObuf s.cfg (0x83FF : Addr).toNat = true ∧
    regionOf s.cfg (0xFFFF : Addr).toNat = .reserved ∧
    (inIbuf s.cfg (0x4FFF : Addr).toNat = true ∧ s.mem.get? (0x4FFF : Addr).toNat = none) := by decide

theorem witness_BufferByteReads :
    (withAbc 256).cfg.legal = true ∧ (withAbc 256).rst = false ∧ (withAbc 256).busy = false ∧
    ((inIbuf (withAbc 256).cfg (0x4000 : Addr).toNat || inObuf (withAbc 256).cfg (0x4000 : Addr).toNat) = true ∧
      (withAbc 256).mem.get? (0x4000 : Addr).toNat = some 0x61) ∧
    ((inIbuf (withAbc 256).cfg (0x83FF : Addr).toNat || inObuf (withAbc 256).cfg (0x83FF : Addr).toNat) = true ∧
      (withAbc 256).mem.get? (0x83FF : Addr).toNat = none) := by decide

/-- No draw among the bytes read; and writes that are no accepted CMD write: of another register, in reset, and while BUSY. -/
theorem witness_OnlyACmdWriteHasASideEffect :
    State.reset.rst = false ∧ (∀ k d, k < Size.one.bytes → hostByteDraws State.reset ((0x0020 : Addr).toNat + k) d = d) ∧
    ¬ (State.reset.busy = false ∧ State.reset.rst = false ∧ ∃ w, Tx.write 0x000C .four 256 = .write 0x0000 .four w) ∧
    (resetEdge true State.reset).rst ≠ false ∧ (running 0x1 State.reset).busy ≠ false := by
  refine ⟨rfl, fun k d hk => ?_, fun ⟨_, _, w, h⟩ => ?_, by decide, by decide⟩
  · have hk' : k < 1 := hk
    obtain rfl : k = 0 := by omega
    rfl
  · injection h with ha
    exact absurd ha (by decide)

theorem witness_ResetEdgeRule :
    { running 0x1 (withAbc 256) with agenda := [.reset true, .host (.read 0 .one), .reset true] }.agenda =
      .reset true :: [.host (.read 0 .one), .reset true] ∧
    { resetEdge true State.reset with agenda := [.reset false, .block] }.agenda = .reset false :: [.block] := ⟨rfl, rfl⟩

theorem witness_HostAccessDuringReset :
    (resetEdge true State.reset).rst = true ∧ 0 < Size.one.bytes ∧ 3 < Size.four.bytes := by decide

/-- The invariant holds of a state with a command running, and a step is taken from it. -/
theorem witness_StepKeepsTheInvariant :
    (running 0x4 State.reset).Inv ∧ ∃ t, step (running 0x4 State.reset) = .next t :=
  ⟨⟨by decide, by decide, by decide, by decide, by decide, by decide, fun h => absurd h (by decide)⟩, _, rfl⟩

theorem witness_AcceptedCommandCompletes :
    let s : State := { running 0x3 State.reset with agenda := [.host (.read 0x0004 .four), .block] }
    s.rst = false ∧ s.busy = true ∧ noReset s.agenda = true := by decide

/-- A write and a read of the host between acceptance and completion. -/
def inFlight : List Tx := [.write 0x000C .four 512, .read 0x8000 .four]

/-- A HASH whose message is written. -/
theorem witness_CommandInFlightIsFixed :
    let s := running 0x11 (withAbc 256)
    s.rst = false ∧ s.seq = .running 0x11 ∧ decode 0x11 = .instr (.hash true) ∧
    (∃ t, blockTurn s = .next t ∧ t.err = .ok) ∧ (∀ k, k < s.inLen.toNat → (s.mem.get? (0x4000 + k)).isSome) ∧
    ∃ u, blockTurn (inFlight.foldl (fun s tx => hostTx tx s) s) = .next u :=
  ⟨rfl, rfl, by decide, ⟨_, rfl, rfl⟩, by decide, ⟨_, rfl⟩⟩

/-- A CLEAR, with bytes below IN_LEN that are not written: it is no HASH or SHAKE. -/
theorem witness_CommandInFlightIsFixed_clear :
    let s := running 0x14 (withParams 0 9 0)
    s.rst = false ∧ s.seq = .running 0x14 ∧ (∃ t, blockTurn s = .next t) ∧
    (∀ raw, ¬ (decode 0x14 = .instr (.hash raw) ∨ decode 0x14 = .instr (.shake raw))) ∧
    ∃ u, blockTurn (inFlight.foldl (fun s tx => hostTx tx s) s) = .next u :=
  ⟨rfl, rfl, ⟨_, rfl⟩, by decide, ⟨_, rfl⟩⟩

theorem witness_SequencerComputesTheCompletion :
    hashOperands true (withAbc 256) = .ok (hashCall true (withAbc 256)) ∧
    shakeOperands false (withParams 128 0 4096) = .ok (shakeCall false (withParams 128 0 4096)) := by decide

end Sys2Proof.Tests
end

section
/-! The invariant of Safety.lean (statements O53 and O54): it holds at reset, and each end of a step keeps it. An update of
a block that is not in reset only has to keep the clauses on the fields it writes; in reset nothing but the bus data, the
agenda and the draw count can change. -/

namespace Sys2Proof.Machine

/-! Results fit OBUF -/

theorem digest_length_le (p : SpongeCall) (s : State) : (digest p s).length ≤ p.digestBytes :=
  List.length_take_le _ _

theorem outputForm_digest_length_le (p : SpongeCall) (s : State) :
    (outputForm p.raw (digest p s)).length ≤ p.outBytes := by
  have hd := digest_length_le p s
  rw [outputForm_length, SpongeCall.outBytes]
  split <;> omega

/-- WriteOut stores only OBUF bytes when the result fits (rules R207, R209). -/
theorem spongeEffect_inBuffers {p : SpongeCall} {s : State} (hm : s.mem.inBuffers s.cfg = true)
    (hp : p.outBytes ≤ s.cfg.obufBytes) : (spongeEffect p s).mem.inBuffers s.cfg = true := by
  have hlen := outputForm_digest_length_le p s
  refine Memory.writeBytes_inBuffers hm obufBase _ fun y hlo hhi => (inObuf_iff s.cfg y).mpr ⟨hlo, ?_⟩
  exact lt_of_lt_of_le hhi (Nat.add_le_add_left (hlen.trans hp) obufBase)

theorem spongeEffect_outCount_le (p : SpongeCall) (s : State) : (spongeEffect p s).outCount.toNat ≤ p.outBytes := by
  rw [spongeEffect_outCount, BitVec.toNat_ofNat]
  exact Nat.mod_le _ _

/-! The invariant at reset and across a reset edge -/

/-- Any legal build has the invariant in the values of rule R41, whatever the pin and the model's own fields. -/
theorem resetOf_inv {c : Config} (hc : c.legal = true) (r : Bool) (v : Word) (a : List Event) (d : Nat) :
    State.Inv { State.resetOf c with rst := r, rdata := v, agenda := a, draws := d } where
  cfg := hc
  memWf := List.Pairwise.nil
  memIn := rfl
  running := fun hb => nomatch hb
  failed := fun he => absurd rfl he
  count := Nat.zero_le _
  inReset := fun hr => by
    have hr : r = true := hr
    rw [hr]
    rfl

theorem State.Inv.resetEdge {s : State} (h : s.Inv) (level : Bool) : (resetEdge level s).Inv := by
  cases level with
  | true => exact resetOf_inv h.cfg true s.rdata s.agenda s.draws
  | false => exact { h with inReset := fun hr => nomatch hr }

/-! What a host transaction writes -/

/-- The invariant says nothing of the bus data, the agenda and the draw count. -/
theorem State.Inv.withModelFields {s : State} (h : s.Inv) (v : Word) (a : List Event) (d : Nat) :
    State.Inv { s with rdata := v, agenda := a, draws := d } :=
  { h with
    inReset := fun hr => congrArg (fun s : State => { s with rdata := v, agenda := a, draws := d }) (h.inReset hr) }

/-- Out of reset the invariant says nothing of the lanes and the three parameters. -/
theorem State.Inv.withLanesAndParams {s : State} (h : s.Inv) (hr : s.rst = false) (L : Lanes) (i n o : Word) :
    State.Inv { s with lanes := L, inLen := i, size := n, outLen := o } :=
  { h with inReset := fun hr' => absurd (hr.symm.trans hr') Bool.false_ne_true }

theorem State.Inv.accept {s : State} (h : s.Inv) (hr : s.rst = false) (w : Word) : (accept w s).Inv :=
  { h with
    running := fun _ => ⟨rfl, rfl⟩
    failed := fun he => absurd rfl he
    inReset := fun hr' => absurd (hr.symm.trans hr') Bool.false_ne_true }

theorem State.Inv.csrWrite {s : State} (h : s.Inv) (hr : s.rst = false) (c : Csr) (v : Word) : (csrWrite c v s).Inv := by
  cases c with
  | cmd => exact h.accept hr v
  | inLen => exact h.withLanesAndParams hr s.lanes v s.size s.outLen
  | size => exact h.withLanesAndParams hr s.lanes s.inLen v s.outLen
  | outLen => exact h.withLanesAndParams hr s.lanes s.inLen s.size v
  | status => exact h
  | outCount => exact h
  | ibufSize => exact h
  | obufSize => exact h

theorem State.Inv.writeHostBytes {s : State} (h : s.Inv) (hr : s.rst = false) (a : Nat) (bs : List Byte) :
    (writeHostBytes s a bs).Inv := by
  obtain ⟨L, m, e⟩ := writeHostBytes_frame s a bs
  obtain ⟨hwf, hin⟩ := writeHostBytes_mem h.memWf h.memIn a bs
  rw [e] at hwf hin ⊢
  exact { h with
    memWf := hwf
    memIn := hin
    inReset := fun hr' => absurd (hr.symm.trans hr') Bool.false_ne_true }

theorem State.Inv.hostTx {s : State} (h : s.Inv) (t : Tx) : (hostTx t s).Inv := by
  cases t with
  | read a n => exact h.withModelFields (memRead s a n).1 s.agenda (memRead s a n).2
  | write a n v =>
    change (memWrite s a n v).Inv
    rcases memWrite_cases s a n v with e | ⟨hr, _, _, _, _, e⟩ | ⟨hr, _, _, _, e⟩ <;> rw [e]
    · exact h
    · exact h.csrWrite hr _ v
    · exact h.writeHostBytes hr _ _

/-! The block's turn -/

/-- Completion sets the sequencer, DONE and ERRCODE, so the clauses on those fields are no premises: it gives the invariant
back after a command's own effects. -/
theorem complete_inv {s : State} (hr : s.rst = false) (hc : s.cfg.legal = true) (hw : s.mem.wf)
    (hm : s.mem.inBuffers s.cfg = true) (hn : s.outCount.toNat ≤ s.cfg.obufBytes) (e : ErrCode) : (complete e s).Inv where
  cfg := hc
  memWf := hw
  memIn := hm
  running := fun hb => nomatch hb
  failed := fun he => ⟨rfl, complete_outCount_error he s⟩
  count := by
    by_cases he : e = .ok
    · rw [he]
      exact hn
    · rw [complete_outCount_error he]
      exact Nat.zero_le _
  inReset := fun hr' => absurd (hr.symm.trans hr') Bool.false_ne_true

theorem State.Inv.complete {s : State} (h : s.Inv) (hr : s.rst = false) (e : ErrCode) : (complete e s).Inv :=
  complete_inv hr h.cfg h.memWf h.memIn h.count e

/-- The successful end of a HASH or SHAKE whose result fits OBUF (rules R201, R207). -/
theorem State.Inv.complete_spongeEffect {s : State} (h : s.Inv) (hr : s.rst = false) {p : SpongeCall}
    (hp : p.outBytes ≤ s.cfg.obufBytes) : (Machine.complete .ok (spongeEffect p s)).Inv :=
  complete_inv (s := spongeEffect p s) hr h.cfg (Memory.writeBytes_wf h.memWf _ _) (spongeEffect_inBuffers h.memIn hp)
    ((spongeEffect_outCount_le p s).trans hp) .ok

theorem State.Inv.exec {s t : State} (h : s.Inv) (hr : s.rst = false) {i : Instr} (ht : exec i s = .next t) : t.Inv := by
  rcases exec_next ht with ⟨_, e, _, _, rfl⟩ | ⟨_, p, _, hp, rfl⟩ | ⟨_, e, _, _, rfl⟩ | ⟨_, p, _, hp, rfl⟩ |
    ⟨_, _, rfl⟩ | ⟨_, _, rfl⟩
  · exact h.complete hr e
  · obtain ⟨_, _, _, hfit⟩ := hashOperands_ok hp
    exact h.complete_spongeEffect hr hfit
  · exact h.complete hr e
  · obtain ⟨_, _, _, _, hfit⟩ := shakeOperands_ok hp
    exact h.complete_spongeEffect hr hfit
  · exact (h.withLanesAndParams hr (keccakF s.lanes) s.inLen s.size s.outLen).complete hr .ok
  · exact (h.withLanesAndParams hr zeroLanes s.inLen s.size s.outLen).complete hr .ok

theorem State.Inv.blockTurn {s t : State} (h : s.Inv) (ht : blockTurn s = .next t) : t.Inv := by
  rcases blockTurn_next ht with rfl | ⟨_, i, hr, _, _, hi⟩ | ⟨_, _, hr, _, _, rfl⟩
  · exact h
  · exact h.exec hr hi
  · exact h.complete hr .illegalCmd

/-! The two statements -/

/-- Settles O54: each of the ends of a step (`step_next`) keeps the invariant, and so does taking the event off. -/
theorem stepKeepsTheInvariant : Obligations.StepKeepsTheInvariant := by
  intro s t h ht
  have hrest (rest : List Event) : State.Inv { s with agenda := rest } := h.withModelFields s.rdata rest s.draws
  rcases step_next ht with ⟨_, hb⟩ | ⟨tx, rest, _, rfl⟩ | ⟨level, rest, _, rfl⟩ | ⟨rest, _, hb⟩
  · exact h.blockTurn hb
  · exact (hrest rest).hostTx tx
  · exact (hrest rest).resetEdge level
  · exact (hrest rest).blockTurn hb

/-- Settles O53: the reference configuration is legal, and the values of rule R41 meet the invariant. -/
theorem invariantAtReset : Obligations.InvariantAtReset :=
  resetOf_inv (c := Config.reference) (by decide) false 0 [] 0

end Sys2Proof.Machine
end

section
/-! Host reads and writes of the state (statements O22, O37, O39, O40, O47 to O50 and O55). One rule per accessor: the byte of each
region as a host reads it, the whole-register CSR read and write, and the message the block reads; the statements are these
rules at their addresses. Then what each event of a step answers. -/

namespace Sys2Proof.Machine

/-! STATUS -/

/-- The word that rule R28 lays out: BUSY, DONE and ERRCODE at their places, every other bit zero. -/
theorem statusFields : ∀ (e : Nibble) (d b : Bool),
    let w : Word := 0#24 ++ e ++ 0#2 ++ BitVec.ofBool d ++ BitVec.ofBool b
    w.toNat = b.toNat + 2 * d.toNat + 16 * e.toNat ∧ b = w.getLsbD 0 ∧ d = w.getLsbD 1 := by
  decide

/-- Settles O37: the layout of the fields, and the table of codes. -/
theorem statusWordLayout : Obligations.StatusWordLayout :=
  ⟨fun s => statusFields s.err.code s.done s.busy, rfl, rfl, rfl, rfl, rfl, rfl, rfl⟩

/-! Reading one byte -/

/-- A one-byte read out of reset is the byte of its region, widened (rules R66, R68). -/
theorem memRead_one {s : State} (hr : s.rst = false) (a : Addr) :
    memRead s a .one = ((hostByte s a.toNat s.draws).setWidth 32, hostByteDraws s a.toNat s.draws) := by
  simp [memRead, hr, Size.bytes, hostBytes, fromLE, Nat.mod_one]

theorem hostByte_csr (s : State) {a : Nat} (h : a < 0x20) (d : Nat) :
    hostByte s a d = (csrValue s (csrAt (a / 4))).extractLsb' (8 * (a % 4)) 8 := by
  simp [hostByte, regionOf_csr h]

theorem hostByteDraws_csr (s : State) {a : Nat} (h : a < 0x20) (d : Nat) : hostByteDraws s a d = d := by
  simp [hostByteDraws, regionOf_csr h]

/-- An IBUF byte, BUSY or not (rules R33, R70). -/
theorem memRead_one_ibuf {s : State} (hr : s.rst = false) {a : Addr} (h : inIbuf s.cfg a.toNat = true) :
    memRead s a .one = ((s.mem.readOr a.toNat s.draws).setWidth 32, s.mem.drawsAfter a.toNat s.draws) := by
  simp [memRead_one hr, hostByte, hostByteDraws, regionOf_ibuf h]

/-- An OBUF byte while the block is idle (rule R35). -/
theorem memRead_one_obuf_idle {s : State} (hc : s.cfg.legal = true) (hr : s.rst = false) (hb : s.busy = false)
    {a : Addr} (h : inObuf s.cfg a.toNat = true) :
    memRead s a .one = ((s.mem.readOr a.toNat s.draws).setWidth 32, s.mem.drawsAfter a.toNat s.draws) := by
  simp [memRead_one hr, hostByte, hostByteDraws, regionOf_obuf hc h, hb]

/-- An OBUF byte while BUSY = 1 is a draw (rules R70, R305). -/
theorem memRead_one_obuf_busy {s : State} (hc : s.cfg.legal = true) (hr : s.rst = false) (hb : s.busy = true)
    {a : Addr} (h : inObuf s.cfg a.toNat = true) :
    memRead s a .one = ((Config.freeByte s.draws).setWidth 32, s.draws + 1) := by
  simp [memRead_one hr, hostByte, hostByteDraws, regionOf_obuf hc h, hb]

/-- A byte of the STATE window while BUSY = 1 is a draw (rules R70, R305). -/
theorem memRead_one_lane_busy {s : State} (hr : s.rst = false) (hb : s.busy = true)
    {a : Addr} (h : 0x100 ≤ a.toNat ∧ a.toNat < 0x1C8) :
    memRead s a .one = ((Config.freeByte s.draws).setWidth 32, s.draws + 1) := by
  simp [memRead_one hr, hostByte, hostByteDraws, regionOf_lane h, hb]

theorem memRead_one_csr {s : State} (hr : s.rst = false) {a : Addr} (h : a.toNat < 0x20) :
    memRead s a .one =
      (((csrValue s (csrAt (a.toNat / 4))).extractLsb' (8 * (a.toNat % 4)) 8).setWidth 32, s.draws) := by
  rw [memRead_one hr, hostByte_csr s h, hostByteDraws_csr s h]

theorem memRead_one_reserved {s : State} (hr : s.rst = false) {a : Addr} (h : regionOf s.cfg a.toNat = .reserved) :
    memRead s a .one = (0, s.draws) := by
  simp [memRead_one hr, hostByte, hostByteDraws, h]

/-! Stored and unwritten buffer bytes -/

theorem Memory.readOr_stored {m : Memory} {a : Nat} {b : Byte} (h : m.get? a = some b) (d : Nat) : m.readOr a d = b := by
  simp [Memory.readOr, h]

theorem Memory.drawsAfter_stored {m : Memory} {a : Nat} {b : Byte} (h : m.get? a = some b) (d : Nat) :
    m.drawsAfter a d = d := by
  simp [Memory.drawsAfter, h]

theorem Memory.readOr_unwritten {m : Memory} {a : Nat} (h : m.get? a = none) (d : Nat) :
    m.readOr a d = Config.freeByte d := by
  simp [Memory.readOr, h]

theorem Memory.drawsAfter_unwritten {m : Memory} {a : Nat} (h : m.get? a = none) (d : Nat) : m.drawsAfter a d = d + 1 := by
  simp [Memory.drawsAfter, h]

theorem Memory.le_drawsAfter (m : Memory) (a d : Nat) : d ≤ m.drawsAfter a d := by
  unfold Memory.drawsAfter
  split <;> omega

/-- Settles O48: while idle, IBUF and OBUF bytes have one rule, taken at a stored and at an unwritten byte. -/
theorem bufferByteReads : Obligations.BufferByteReads := by
  intro s a hc hr hb ha
  have hread : memRead s a .one = ((s.mem.readOr a.toNat s.draws).setWidth 32, s.mem.drawsAfter a.toNat s.draws) := by
    rcases Bool.or_eq_true_iff.mp ha with hi | ho
    · exact memRead_one_ibuf hr hi
    · exact memRead_one_obuf_idle hc hr hb ho
  constructor
  · intro b h
    rw [hread, Memory.readOr_stored h, Memory.drawsAfter_stored h]
  · intro h
    rw [hread, Memory.readOr_unwritten h, Memory.drawsAfter_unwritten h]

theorem memWrite_busy {s : State} (h : s.busy = true) (a : Addr) (n : Size) (v : Word) : memWrite s a n v = s := by
  simp [memWrite, h]

/-- Settles O47: writes are ignored, and each region's rule for a byte read while BUSY = 1. -/
theorem busyWindow : Obligations.BusyWindow := by
  intro s hc hr hb
  refine ⟨memWrite_busy hb, fun a => ⟨memRead_one_csr hr, fun b hi h => ?_, memRead_one_reserved hr, ?_⟩⟩
  · rw [memRead_one_ibuf hr hi, Memory.readOr_stored h, Memory.drawsAfter_stored h]
  · rintro (hl | ho | ⟨hi, h⟩)
    · exact memRead_one_lane_busy hr hb hl
    · exact memRead_one_obuf_busy hc hr hb ho
    · rw [memRead_one_ibuf hr hi, Memory.readOr_unwritten h, Memory.drawsAfter_unwritten h]

/-! Whole-register CSR access -/

/-- A value of n bytes put together from its own bytes (rules R68, R161, R162). -/
theorem fromLE_toLE {w n : Nat} (hw : w = 8 * n) (v : BitVec w) : fromLE w (toLE n v) = v := by
  refine BitVec.eq_of_getLsbD_eq fun i hi => ?_
  have hk : i / 8 < n := by omega
  have hb : i % 8 < 8 := Nat.mod_lt _ (by decide)
  rw [← Nat.div_add_mod i 8, fromLE_getLsbD _ hb (by omega), List.getD_eq_getElem?_getD, toLE_getElem? v hk,
    Option.getD_some, BitVec.getLsbD_extractLsb', decide_eq_true hb, Bool.true_and]

/-- Bytes of a CSR range: an aligned word is the bytes of its one register. -/
theorem hostBytes_csrWord (s : State) {a : Nat} (ha : a % 4 = 0) (h : a < 0x20) (d : Nat) :
    hostBytes s a 4 d = (toLE 4 (csrValue s (csrAt (a / 4))), d) := by
  have hbyte (k : Nat) (hk : k < 4) :
      hostByte s (a + k) d = (csrValue s (csrAt (a / 4))).extractLsb' (8 * k) 8 ∧ hostByteDraws s (a + k) d = d := by
    have hlt : a + k < 0x20 := by omega
    rw [hostByte_csr s hlt, hostByteDraws_csr s hlt, show (a + k) / 4 = a / 4 by omega, show (a + k) % 4 = k by omega]
    exact ⟨rfl, rfl⟩
  obtain ⟨h0, d0⟩ := hbyte 0 (by decide)
  obtain ⟨h1, d1⟩ := hbyte 1 (by decide)
  obtain ⟨h2, d2⟩ := hbyte 2 (by decide)
  obtain ⟨h3, d3⟩ := hbyte 3 (by decide)
  rw [Nat.add_zero] at h0 d0
  simp only [hostBytes, Nat.add_assoc, Nat.reduceAdd, h0, d0, h1, d1, h2, d2, h3, d3]
  rfl

/-- A 4-byte read of a CSR returns its value and takes no draw (rules R26, R67). -/
theorem memRead_csr {s : State} (hr : s.rst = false) {a : Addr} (ha : a.toNat % 4 = 0) (h : a.toNat < 0x20) :
    memRead s a .four = (csrValue s (csrAt (a.toNat / 4)), s.draws) := by
  simp [memRead, hr, Size.bytes, ha, hostBytes_csrWord s ha h, fromLE_toLE]

/-- A 4-byte write of a CSR while the block is idle (rules R26, R67). -/
theorem memWrite_csr {s : State} (hr : s.rst = false) (hb : s.busy = false) {a : Addr} (ha : a.toNat % 4 = 0)
    (h : a.toNat < 0x20) (v : Word) : memWrite s a .four v = csrWrite (csrAt (a.toNat / 4)) v s := by
  simp [memWrite, hr, hb, Size.bytes, ha, h]

/-- Settles O39: the read rule at each of the eight addresses. -/
theorem csrReadValues : Obligations.CsrReadValues := by
  intro s hr
  refine ⟨?_, ?_, ?_, ?_, ?_, ?_, ?_, ?_⟩ <;> exact memRead_csr hr rfl (by decide)

/-- Settles O40: the write rule at each address but CMD's. -/
theorem csrWriteEffects : Obligations.CsrWriteEffects := by
  intro s v hr hb
  refine ⟨?_, ?_, ?_, ?_, ?_, ?_, ?_⟩ <;> exact memWrite_csr hr hb rfl (by decide) v

/-- Settles O50: the fields are those of `State.resetOf`; the three reads are `csrReadValues` at reset. -/
theorem resetValues : Obligations.ResetValues := by
  obtain ⟨hcmd, _, _, _, _, _, hibuf, hobuf⟩ := csrReadValues State.reset rfl
  exact ⟨fun i => Vector.getElem_replicate i.isLt, rfl, rfl, rfl, rfl, rfl, rfl, rfl, rfl, Memory.get?_nil, rfl,
    hcmd, hibuf, hobuf⟩

/-! What a transaction leaves alone -/

/-- What a host reads does not depend on the bus's data lines or on the count of draws kept in the state. -/
theorem hostBytes_withBus (s : State) (v : Word) (e a n d : Nat) :
    hostBytes { s with rdata := v, draws := e } a n d = hostBytes s a n d := by
  induction n generalizing a d with
  | zero => rfl
  | succ n ih =>
    have hbyte : hostByte { s with rdata := v, draws := e } a d = hostByte s a d := rfl
    have hdraws : hostByteDraws { s with rdata := v, draws := e } a d = hostByteDraws s a d := rfl
    simp only [hostBytes, hbyte, hdraws, ih]

theorem memRead_withRdata (s : State) (v : Word) (a : Addr) (n : Size) :
    memRead { s with rdata := v } a n = memRead s a n := by
  simp only [memRead, hostBytes_withBus s v s.draws]

theorem hostBytes_noDraw {s : State} {a n : Nat} (h : ∀ k d, k < n → hostByteDraws s (a + k) d = d) (d : Nat) :
    (hostBytes s a n d).2 = d := by
  induction n generalizing a with
  | zero => rfl
  | succ n ih =>
    have hrest : ∀ k d, k < n → hostByteDraws s (a + 1 + k) d = d := fun k d hk => by
      rw [Nat.add_assoc, Nat.add_comm 1 k]
      exact h (k + 1) d (by omega)
    have hfirst : hostByteDraws s a d = d := h 0 d (by omega)
    simp only [hostBytes, hfirst, ih hrest]

theorem memRead_noDraw {s : State} (hr : s.rst = false) {a : Addr} {n : Size}
    (h : ∀ k d, k < n.bytes → hostByteDraws s (a.toNat + k) d = d) : (memRead s a n).2 = s.draws := by
  unfold memRead
  rw [hr]
  split
  · contradiction
  · split
    · rfl
    · exact hostBytes_noDraw h s.draws

/-- The running command and what STATUS and OUT_COUNT show are the same in both states. -/
def State.sameCommand (s t : State) : Prop :=
  t.seq = s.seq ∧ t.done = s.done ∧ t.err = s.err ∧ t.outCount = s.outCount

theorem csrWrite_sameCommand {c : Csr} (hc : c ≠ .cmd) (v : Word) (s : State) : s.sameCommand (csrWrite c v s) := by
  cases c with
  | cmd => exact absurd rfl hc
  | status | inLen | size | outLen | outCount | ibufSize | obufSize => exact ⟨rfl, rfl, rfl, rfl⟩

theorem csrAt_eq_cmd {a : Addr} (h4 : a.toNat % 4 = 0) (hlt : a.toNat < 0x20) (h : csrAt (a.toNat / 4) = .cmd) : a = 0 := by
  have hq : a.toNat / 4 < 8 := by omega
  have hcmd : ∀ q < 8, csrAt q = .cmd → q = 0 := by decide
  have := hcmd _ hq h
  exact BitVec.eq_of_toNat_eq (show a.toNat = 0 by omega)

/-- Only an accepted write of CMD touches the command and its result (rules R72, R200). -/
theorem hostTx_sameCommand {s : State} {t : Tx}
    (h : ¬ (s.busy = false ∧ s.rst = false ∧ ∃ w, t = .write 0x0000 .four w)) : s.sameCommand (hostTx t s) := by
  cases t with
  | read a n => exact ⟨rfl, rfl, rfl, rfl⟩
  | write a n v =>
    change s.sameCommand (memWrite s a n v)
    rcases memWrite_cases s a n v with e | ⟨hr, hb, rfl, h4, hlt, e⟩ | ⟨_, _, _, _, e⟩ <;> rw [e]
    · exact ⟨rfl, rfl, rfl, rfl⟩
    · refine csrWrite_sameCommand (fun hcmd => h ⟨hb, hr, v, ?_⟩) v s
      rw [csrAt_eq_cmd h4 hlt hcmd]
    · obtain ⟨L, m, e⟩ := writeHostBytes_frame s a.toNat (toLE n.bytes v)
      rw [e]
      exact ⟨rfl, rfl, rfl, rfl⟩

/-- Settles O49: the read's frame, a read that draws nothing leaves the state it reads from but for the data lines, and
the frame of the other transactions. -/
theorem onlyACmdWriteHasASideEffect : Obligations.OnlyACmdWriteHasASideEffect := by
  refine ⟨fun s a n => rfl, fun s a n hr hd => ?_, fun s t h => hostTx_sameCommand h⟩
  have hstate : hostTx (.read a n) s = { s with rdata := (memRead s a n).1 } := by
    simp only [hostTx, memRead_noDraw hr hd]
  rw [hstate, memRead_withRdata]

/-! The message -/

theorem Memory.le_readBytes_draws (m : Memory) (a n d : Nat) : d ≤ (m.readBytes a n d).2 := by
  induction n generalizing a d with
  | zero => exact le_refl d
  | succ n ih => exact (m.le_drawsAfter a d).trans (ih (a + 1) (m.drawsAfter a d))

/-- Byte k of a run of bytes is read with the draw number then due, which is one of the run's own if the byte is unwritten. -/
theorem Memory.readBytes_getElem? (m : Memory) {a n d k : Nat} (hk : k < n) :
    ∃ e, d ≤ e ∧ (m.readBytes a n d).1[k]? = some (m.readOr (a + k) e) ∧
      (m.get? (a + k) = none → e < (m.readBytes a n d).2) := by
  induction n generalizing a d k with
  | zero => exact absurd hk (Nat.not_lt_zero k)
  | succ n ih =>
    cases k with
    | zero =>
      refine ⟨d, le_refl d, rfl, fun h => ?_⟩
      rw [Nat.add_zero] at h
      have hle := m.le_readBytes_draws (a + 1) n (m.drawsAfter a d)
      rw [Memory.drawsAfter_unwritten h] at hle
      rw [Memory.readBytes, Memory.drawsAfter_unwritten h]
      exact hle
    | succ k =>
      obtain ⟨e, hde, hget, hdraw⟩ := ih (a := a + 1) (d := m.drawsAfter a d) (Nat.lt_of_succ_lt_succ hk)
      rw [Nat.add_assoc, Nat.add_comm 1 k] at hget hdraw
      exact ⟨e, (m.le_drawsAfter a d).trans hde, hget, hdraw⟩

@[simp] theorem readMessage_length (s : State) : (readMessage s).1.length = s.inLen.toNat :=
  Memory.readBytes_length _ _ _ _

/-- Settles O22: `Memory.readBytes_getElem?` for IBUF, at a stored and at an unwritten byte. -/
theorem messageIsIbufAsStored : Obligations.MessageIsIbufAsStored := by
  intro s
  refine ⟨readMessage_length s, fun k hk => ?_⟩
  obtain ⟨e, hde, hget, hdraw⟩ := s.mem.readBytes_getElem? (a := ibufBase) (d := s.draws) hk
  rw [← readMessage, ibufBase] at hget
  constructor
  · intro b h
    rw [hget, Memory.readOr_stored h]
  · intro h
    refine ⟨e, hde, hdraw h, ?_⟩
    rw [hget, Memory.readOr_unwritten h]

/-! Every step goes on -/

theorem memWrite_cfg (s : State) (a : Addr) (n : Size) (v : Word) : (memWrite s a n v).cfg = s.cfg := by
  rcases memWrite_cases s a n v with e | ⟨_, _, _, _, _, e⟩ | ⟨_, _, _, _, e⟩ <;> rw [e]
  · cases csrAt (a.toNat / 4) <;> rfl
  · obtain ⟨L, m, e⟩ := writeHostBytes_frame s a.toNat (toLE n.bytes v)
    rw [e]

theorem hostTx_cfg (t : Tx) (s : State) : (hostTx t s).cfg = s.cfg := by
  cases t with
  | read a n => rfl
  | write a n v => exact memWrite_cfg s a n v

theorem resetEdge_cfg (level : Bool) (s : State) : (resetEdge level s).cfg = s.cfg := by
  cases level <;> rfl

theorem runSponge_goesOn (c : Except ErrCode SpongeCall) (s : State) : ∃ t, runSponge c s = .next t ∧ t.cfg = s.cfg := by
  cases c with
  | error e => exact ⟨complete e s, rfl, rfl⟩
  | ok p => exact ⟨complete .ok (spongeEffect p s), rfl, rfl⟩

theorem exec_goesOn (i : Instr) (s : State) : ∃ t, exec i s = .next t ∧ t.cfg = s.cfg := by
  cases i with
  | hash raw => exact runSponge_goesOn (hashOperands raw s) s
  | shake raw => exact runSponge_goesOn (shakeOperands raw s) s
  | permute raw => exact ⟨_, exec_permute raw s, rfl⟩
  | clear raw => exact ⟨_, exec_clear raw s, rfl⟩

theorem blockTurn_goesOn (s : State) : ∃ t, blockTurn s = .next t ∧ t.cfg = s.cfg := by
  by_cases hr : s.rst = true
  · exact ⟨s, blockTurn_inReset hr, rfl⟩
  · cases hs : s.seq with
    | idle => exact ⟨s, blockTurn_idle hs, rfl⟩
    | running w =>
      rw [blockTurn_running (Bool.not_eq_true _ ▸ hr) hs]
      cases decode w with
      | instr i => exact exec_goesOn i s
      | illegal why => exact ⟨complete .illegalCmd s, rfl, rfl⟩

theorem runEvent_goesOn (e : Event) (s : State) : ∃ t, runEvent e s = .next t ∧ t.cfg = s.cfg := by
  cases e with
  | host tx => exact ⟨hostTx tx s, rfl, hostTx_cfg tx s⟩
  | block => exact blockTurn_goesOn s
  | reset level => exact ⟨resetEdge level s, rfl, resetEdge_cfg level s⟩

/-- Settles O55: by the event that is due. -/
theorem everyStepGoesOn : Obligations.EveryStepGoesOn := by
  intro s
  cases ha : s.agenda with
  | nil =>
    rw [step_agendaEmpty ha]
    exact blockTurn_goesOn s
  | cons e rest =>
    rw [step_agenda ha]
    exact runEvent_goesOn e { s with agenda := rest }

end Sys2Proof.Machine
end

section
/-! Datapaths (statement O12): every operation on a faithful form stands for the 64-bit operation on its lanes, so each step
mapping, each round, the permutation and each loop of the sponge commute with `Datapath.lanes`. -/

namespace Sys2Proof.Machine

section

variable {α : Type} {d : Datapath α}

theorem Datapath.lanes_get (d : Datapath α) (S : Forms α) (i : Fin 25) : (d.lanes S)[i] = d.toLane S[i] := by
  simp [Datapath.lanes]

theorem Datapath.lanes_set (d : Datapath α) (S : Forms α) (i : Nat) (hi : i < 25) (a : α) :
    d.lanes (S.set i a hi) = (d.lanes S).set i (d.toLane a) hi :=
  Vector.map_set

theorem rotc_lt : ∀ i : Fin 24, rotc[i] < 64 := by decide

/-! One faithful operation under each step mapping of the round -/

theorem Datapath.Faithful.theta (hd : d.Faithful) (S : Forms α) : d.lanes (d.theta S) = Machine.theta (d.lanes S) := by
  refine lanes_ext fun i => ?_
  have hrot := fun a => hd.rotl a 1 (by decide)
  simp only [Datapath.lanes_get, theta_get, thetaD_get, thetaC_get]
  simp [Datapath.theta, hd.xor, hrot]

/-- The lanes and the carried lane that a ρ + π state on the datapath stands for. -/
def Datapath.lanesAndCarry (d : Datapath α) (st : Forms α × α) : Lanes × Lane := (d.lanes st.1, d.toLane st.2)

theorem Datapath.Faithful.rhoPiStep (hd : d.Faithful) (st : Forms α × α) (i : Fin 24) :
    d.lanesAndCarry (d.rhoPiStep st i) = Machine.rhoPiStep (d.lanesAndCarry st) i := by
  have hrot := hd.rotl st.2 rotc[i] (rotc_lt i)
  simp only [Datapath.lanesAndCarry, Datapath.rhoPiStep, Machine.rhoPiStep, Datapath.lanes_get, Datapath.lanes_set, hrot]

theorem Datapath.Faithful.rhoPi (hd : d.Faithful) (S : Forms α) : d.lanes (d.rhoPi S) = Machine.rhoPi (d.lanes S) := by
  have hfold := List.foldl_hom d.lanesAndCarry (g₁ := d.rhoPiStep) (g₂ := Machine.rhoPiStep) (l := List.finRange 24)
    (init := (S, S[(1 : Fin 25)])) fun st i => (hd.rhoPiStep st i).symm
  have hstart : d.lanesAndCarry (S, S[(1 : Fin 25)]) = (d.lanes S, (d.lanes S)[(1 : Fin 25)]) := by
    rw [Datapath.lanesAndCarry, Datapath.lanes_get]
  rw [hstart] at hfold
  exact (congrArg Prod.fst hfold).symm

theorem Datapath.Faithful.chi (hd : d.Faithful) (S : Forms α) : d.lanes (d.chi S) = Machine.chi (d.lanes S) := by
  refine lanes_ext fun i => ?_
  simp only [Datapath.lanes_get, chi_get]
  simp [Datapath.chi, hd.xor, hd.and, hd.not]

theorem Datapath.Faithful.iota (hd : d.Faithful) (S : Forms α) (k : Fin 24) :
    d.lanes (d.iota S k) = Machine.iota (d.lanes S) k := by
  simp only [Datapath.iota, Machine.iota, Datapath.lanes_set, Datapath.lanes_get, hd.xor, hd.ofLane]

theorem Datapath.Faithful.keccakRound (hd : d.Faithful) (S : Forms α) (k : Fin 24) :
    d.lanes (d.keccakRound S k) = Machine.keccakRound (d.lanes S) k := by
  rw [Datapath.keccakRound, hd.iota, hd.chi, hd.rhoPi, hd.theta, Machine.keccakRound]

theorem Datapath.Faithful.keccakF (hd : d.Faithful) (S : Forms α) : d.lanes (d.keccakF S) = Machine.keccakF (d.lanes S) := by
  rw [Machine.keccakF]
  exact (List.foldl_hom d.lanes fun T k => (hd.keccakRound T k).symm).symm

/-! The sponge -/

/-- A block that is long enough loads whole lanes (rule R165). -/
theorem Datapath.Faithful.absorbBlock (hd : d.Faithful) {r : Nat} (S : Forms α) {B : List Byte} (hB : r ≤ B.length) :
    d.lanes (d.absorbBlock r S B) = Machine.absorbBlock r (d.lanes S) B := by
  refine lanes_ext fun i => ?_
  rw [Datapath.lanes_get, absorbBlock_get, Datapath.lanes_get]
  by_cases hi : i.val < r / 8
  · have hload := hd.load (blockWord B i) (blockWord_length (by omega))
    simp [Datapath.absorbBlock, hi, hd.xor, hload]
  · simp [Datapath.absorbBlock, hi]

theorem Datapath.Faithful.absorbLoop (hd : d.Faithful) (r fuel : Nat) (S : Forms α) (M : List Byte) :
    Machine.absorbLoop r fuel (d.lanes S) M = (d.lanes (d.absorbLoop r fuel S M).1, (d.absorbLoop r fuel S M).2) := by
  induction fuel generalizing S M with
  | zero => rfl
  | succ fuel ih =>
    by_cases h : r ≤ M.length
    · have hblock : r ≤ (M.take r).length := by rw [List.length_take]; omega
      rw [absorbLoop_turn h, ← hd.absorbBlock S hblock, ← hd.keccakF, ih, Datapath.absorbLoop, if_pos h]
    · rw [absorbLoop_end (Nat.lt_of_not_le h), Datapath.absorbLoop, if_neg h]

theorem Datapath.Faithful.emitBlock (hd : d.Faithful) (r : Nat) (S : Forms α) :
    d.emitBlock r S = Machine.emitBlock r (d.lanes S) := by
  have hstore : d.store = fun a => leBytes (d.toLane a) := funext hd.store
  rw [Datapath.emitBlock, Machine.emitBlock, Datapath.lanes, Vector.toList_map, ← List.map_take, List.flatMap_map, hstore]

theorem Datapath.Faithful.squeezeLoop (hd : d.Faithful) (r n fuel : Nat) (S : Forms α) (Z : List Byte) :
    d.squeezeLoop r n fuel S Z = Machine.squeezeLoop r n fuel (d.lanes S) Z := by
  induction fuel generalizing S Z with
  | zero => rfl
  | succ fuel ih => rw [Datapath.squeezeLoop, Machine.squeezeLoop, hd.emitBlock, ih, hd.keccakF]

theorem Datapath.Faithful.lanes_zero (hd : d.Faithful) : d.lanes (Vector.replicate 25 (d.ofLane 0)) = zeroLanes := by
  rw [Datapath.lanes, Vector.map_replicate, hd.ofLane, zeroLanes]

theorem le_padBlock_length (r : Nat) (suffix : Byte) (tail : List Byte) : r ≤ (padBlock r suffix tail).length := by
  simp only [padBlock, List.length_modify, List.length_append, List.length_replicate]
  omega

theorem Datapath.Faithful.sponge (hd : d.Faithful) (M : List Byte) (capacity outBits : Nat) (suffix : Byte) :
    d.sponge M capacity outBits suffix = Machine.sponge M capacity outBits suffix := by
  have hloop := hd.absorbLoop (rateOf capacity) M.length (Vector.replicate 25 (d.ofLane 0)) M
  rw [hd.lanes_zero] at hloop
  simp only [Datapath.sponge, Machine.sponge, squeeze, absorbAll, hd.squeezeLoop, hd.keccakF,
    hd.absorbBlock _ (le_padBlock_length _ _ _), hloop]

end

/-- Settles O12: the permutation and the sponge commute with the form, operation by operation. -/
theorem faithfulDatapathsAreBitIdentical : Obligations.FaithfulDatapathsAreBitIdentical :=
  fun _ _ hd => ⟨hd.keccakF, hd.sponge⟩

end Sys2Proof.Machine
end

section
/-! The sequencer (statement O58): a permutation is 24 rounds; the absorb phase follows `absorbLoop` and the squeeze phase
`squeezeLoop` turn by turn, and each turn adds one permutation. -/

namespace Sys2Proof.Machine

/-! Runs -/

theorem Hidden.run_add (m n : Nat) (h : Hidden) : Hidden.run (m + n) h = Hidden.run n (Hidden.run m h) := by
  induction m generalizing h with
  | zero => rw [Nat.zero_add]; rfl
  | succ m ih => rw [Nat.succ_add]; exact ih h.next

/-- The sequencer comes from h to h' in some number of steps. -/
def Hidden.Reaches (h h' : Hidden) : Prop := ∃ n, Hidden.run n h = h'

theorem Hidden.Reaches.trans {h₁ h₂ h₃ : Hidden} (a : h₁.Reaches h₂) (b : h₂.Reaches h₃) : h₁.Reaches h₃ := by
  obtain ⟨m, rfl⟩ := a
  obtain ⟨n, rfl⟩ := b
  exact ⟨m + n, Hidden.run_add m n h₁⟩

/-- Between permutations a step is the phase's move. -/
theorem Hidden.reaches_nextMove {h : Hidden} (hr : h.round = 24) : h.Reaches h.nextMove :=
  ⟨1, by simp [Hidden.run, Hidden.next, hr]⟩

/-! One permutation -/

/-- The sequencer's state after the first k rounds of a permutation (rules R132, R314). -/
def Hidden.afterRounds (h : Hidden) (k : Nat) : Hidden :=
  { h with
    work := ((List.finRange 24).take k).foldl keccakRound h.work
    round := k
    perms := if k = 24 then h.perms + 1 else h.perms }

theorem Hidden.next_afterRounds (h : Hidden) {k : Nat} (hk : k < 24) : (h.afterRounds k).next = h.afterRounds (k + 1) := by
  have hlast : (List.finRange 24).take (k + 1) = (List.finRange 24).take k ++ [⟨k, hk⟩] := by
    rw [List.take_add_one, List.getElem?_eq_getElem (by simpa using hk), List.getElem_finRange]
    rfl
  have hne : k ≠ 24 := by omega
  simp [Hidden.next, Hidden.afterRounds, Hidden.nextRound, hk, hne, hlast]

theorem Hidden.run_afterRounds (h : Hidden) {k : Nat} (hk : k ≤ 24) : Hidden.run k (h.afterRounds 0) = h.afterRounds k := by
  induction k with
  | zero => rfl
  | succ k ih => rw [Hidden.run_add, ih (by omega)]; exact h.next_afterRounds hk

/-- From round 0 on, a whole permutation (rule R133). -/
theorem Hidden.reaches_permuted (h : Hidden) :
    Hidden.Reaches { h with round := 0 } { h with work := keccakF h.work, round := 24, perms := h.perms + 1 } := by
  refine ⟨24, ?_⟩
  change Hidden.run 24 (h.afterRounds 0) = _
  rw [h.run_afterRounds (le_refl 24), keccakF]
  rfl

/-- A move that starts a permutation, and the permutation. -/
theorem Hidden.reaches_permuted_of_nextMove {h h' : Hidden} (hr : h.round = 24)
    (hm : h.nextMove = { h' with round := 0 }) :
    h.Reaches { h' with work := keccakF h'.work, round := 24, perms := h'.perms + 1 } := by
  have hmove := Hidden.reaches_nextMove hr
  rw [hm] at hmove
  exact hmove.trans h'.reaches_permuted

/-! The moves of a call, between permutations -/

/-- In ABSORB, the cursor at pos, the lanes at S, k permutations done. -/
def Hidden.absorbing (p : SpongeCall) (M : List Byte) (pos : Nat) (S : Lanes) (k : Nat) : Hidden :=
  { phase := .absorb, call := p, message := M, work := S, round := 24, pos := pos, block := [], out := [], perms := k }

/-- In PAD, with the padded block B. -/
def Hidden.padding (p : SpongeCall) (M : List Byte) (pos : Nat) (S : Lanes) (B : List Byte) (k : Nat) : Hidden :=
  { Hidden.absorbing p M pos S k with phase := .pad, block := B }

/-- In SQUEEZE, with the bytes Z squeezed so far. -/
def Hidden.squeezing (p : SpongeCall) (M : List Byte) (pos : Nat) (S : Lanes) (B Z : List Byte) (k : Nat) : Hidden :=
  { Hidden.absorbing p M pos S k with phase := .squeeze, block := B, out := Z }

section

variable {p : SpongeCall} {M : List Byte} {pos : Nat} {S : Lanes} {B Z : List Byte} {k : Nat}

theorem Hidden.absorbing_turn (h : rateOf p.capacity ≤ M.length - pos) :
    (Hidden.absorbing p M pos S k).Reaches (Hidden.absorbing p M (pos + rateOf p.capacity)
      (keccakF (absorbBlock (rateOf p.capacity) S ((M.drop pos).take (rateOf p.capacity)))) (k + 1)) :=
  Hidden.reaches_permuted_of_nextMove (h' := Hidden.absorbing p M (pos + rateOf p.capacity)
    (absorbBlock (rateOf p.capacity) S ((M.drop pos).take (rateOf p.capacity))) k) rfl (if_pos h)

theorem Hidden.absorbing_end (h : M.length - pos < rateOf p.capacity) :
    (Hidden.absorbing p M pos S k).Reaches
      (Hidden.padding p M pos S (padBlock (rateOf p.capacity) p.suffix (M.drop pos)) k) := by
  have hmove : (Hidden.absorbing p M pos S k).nextMove =
      Hidden.padding p M pos S (padBlock (rateOf p.capacity) p.suffix (M.drop pos)) k := if_neg (Nat.not_le_of_lt h)
  exact hmove ▸ Hidden.reaches_nextMove rfl

theorem Hidden.padding_turn : (Hidden.padding p M pos S B k).Reaches
    (Hidden.squeezing p M pos (keccakF (absorbBlock (rateOf p.capacity) S B)) B [] (k + 1)) := by
  refine Hidden.reaches_permuted_of_nextMove
    (h' := Hidden.squeezing p M pos (absorbBlock (rateOf p.capacity) S B) B [] k) rfl ?_
  simp only [Hidden.nextMove, Hidden.padding, Hidden.squeezing, Hidden.absorbing]

theorem Hidden.squeezing_turn (h : (Z ++ emitBlock (rateOf p.capacity) S).length < p.digestBytes) :
    (Hidden.squeezing p M pos S B Z k).Reaches
      (Hidden.squeezing p M pos (keccakF S) B (Z ++ emitBlock (rateOf p.capacity) S) (k + 1)) :=
  Hidden.reaches_permuted_of_nextMove
    (h' := Hidden.squeezing p M pos S B (Z ++ emitBlock (rateOf p.capacity) S) k) rfl (if_neg (Nat.not_le_of_lt h))

theorem Hidden.squeezing_end (h : p.digestBytes ≤ (Z ++ emitBlock (rateOf p.capacity) S).length) :
    (Hidden.squeezing p M pos S B Z k).Reaches
      { Hidden.squeezing p M pos S B ((Z ++ emitBlock (rateOf p.capacity) S).take p.digestBytes) k with
        phase := .writeback } := by
  have hmove : (Hidden.squeezing p M pos S B Z k).nextMove =
      { Hidden.squeezing p M pos S B ((Z ++ emitBlock (rateOf p.capacity) S).take p.digestBytes) k with
        phase := .writeback } := if_pos h
  exact hmove ▸ Hidden.reaches_nextMove rfl

/-! The two loops -/

/-- In PAD at the cursor pos', when `absorbLoop` has run on the message from pos on, one permutation a whole block (rules R166,
R167). -/
def Hidden.absorbed (p : SpongeCall) (M : List Byte) (pos fuel : Nat) (S : Lanes) (k pos' : Nat) : Hidden :=
  let A := absorbLoop (rateOf p.capacity) fuel S (M.drop pos)
  Hidden.padding p M pos' A.1 (padBlock (rateOf p.capacity) p.suffix A.2) (k + (M.length - pos) / rateOf p.capacity)

/-- Less than a block is left: PAD comes next, and `absorbLoop` ends. -/
theorem Hidden.reaches_padding_end (h : M.length - pos < rateOf p.capacity) (fuel : Nat) :
    ∃ pos', (Hidden.absorbing p M pos S k).Reaches (Hidden.absorbed p M pos fuel S k pos') := by
  have htail : (M.drop pos).length < rateOf p.capacity := by simpa using h
  simp only [Hidden.absorbed, absorbLoop_end htail, Nat.div_eq_of_lt h, Nat.add_zero]
  exact ⟨pos, Hidden.absorbing_end h⟩

/-- ABSORB takes the turns of `absorbLoop`, wherever it leaves the cursor. -/
theorem Hidden.reaches_padding (hr : 0 < rateOf p.capacity) {fuel : Nat} (hfuel : M.length - pos ≤ fuel) :
    ∃ pos', (Hidden.absorbing p M pos S k).Reaches (Hidden.absorbed p M pos fuel S k pos') := by
  induction fuel generalizing pos S k with
  | zero => exact Hidden.reaches_padding_end (by omega) 0
  | succ fuel ih =>
    by_cases h : rateOf p.capacity ≤ M.length - pos
    · obtain ⟨pos', hrest⟩ := ih (pos := pos + rateOf p.capacity) (k := k + 1)
        (S := keccakF (absorbBlock (rateOf p.capacity) S ((M.drop pos).take (rateOf p.capacity)))) (by omega)
      have hcount : k + (M.length - pos) / rateOf p.capacity =
          k + 1 + (M.length - (pos + rateOf p.capacity)) / rateOf p.capacity := by
        rw [Nat.div_eq_sub_div hr h, Nat.sub_sub, Nat.add_assoc, Nat.add_comm 1]
      refine ⟨pos', (Hidden.absorbing_turn h).trans ?_⟩
      have hblock : rateOf p.capacity ≤ (M.drop pos).length := by simpa using h
      simp only [Hidden.absorbed, absorbLoop_turn hblock, List.drop_drop, hcount]
      exact hrest
    · exact Hidden.reaches_padding_end (Nat.lt_of_not_le h) (fuel + 1)

/-- SQUEEZE takes the turns of `squeezeLoop`, a permutation only before a further block, and ends in WRITEBACK with the cut
bytes (rule R170). -/
theorem Hidden.reaches_writeback (hr : 0 < rateOf p.capacity)
    (hemit : ∀ T, (emitBlock (rateOf p.capacity) T).length = rateOf p.capacity) {fuel : Nat}
    (hZ : Z.length < p.digestBytes) (hfuel : p.digestBytes - Z.length ≤ fuel) :
    ∃ h, (Hidden.squeezing p M pos S B Z k).Reaches h ∧ h.phase = .writeback ∧
      h.out = (squeezeLoop (rateOf p.capacity) p.digestBytes fuel S Z).take p.digestBytes ∧
      h.perms = k + (p.digestBytes - 1 - Z.length) / rateOf p.capacity := by
  induction fuel generalizing S Z k with
  | zero => omega
  | succ fuel ih =>
    have hlen : (Z ++ emitBlock (rateOf p.capacity) S).length = Z.length + rateOf p.capacity := by
      rw [List.length_append, hemit]
    by_cases h : p.digestBytes ≤ (Z ++ emitBlock (rateOf p.capacity) S).length
    · refine ⟨_, Hidden.squeezing_end h, rfl, ?_, ?_⟩
      · rw [squeezeLoop, if_pos h]
        rfl
      · rw [Nat.div_eq_of_lt (by omega)]
        rfl
    · obtain ⟨h', hreach, hphase, hout, hperms⟩ := ih (S := keccakF S) (Z := Z ++ emitBlock (rateOf p.capacity) S)
        (k := k + 1) (by omega) (by omega)
      refine ⟨h', (Hidden.squeezing_turn (by omega)).trans hreach, hphase, ?_, ?_⟩
      · rw [hout, squeezeLoop, if_neg h]
      · have hle : rateOf p.capacity ≤ p.digestBytes - 1 - Z.length := by omega
        rw [hperms, hlen, Nat.div_eq_sub_div hr hle, Nat.sub_sub _ Z.length, Nat.add_assoc, Nat.add_comm 1]

/-- The whole run of a call: `sponge`, and the permutations of rule R314. -/
theorem Hidden.startSponge_reaches (hr : 0 < rateOf p.capacity)
    (hemit : ∀ T, (emitBlock (rateOf p.capacity) T).length = rateOf p.capacity) (hn : 0 < p.digestBytes) (M : List Byte) :
    ∃ h, (Hidden.startSponge p M).Reaches h ∧ h.phase = .writeback ∧
      h.out = sponge M p.capacity p.outBits p.suffix ∧ h.perms = p.permutations M.length := by
  obtain ⟨pos, hpad⟩ := Hidden.reaches_padding (p := p) (M := M) (pos := 0) (S := zeroLanes) (k := 0) hr (le_refl M.length)
  obtain ⟨h, hreach, hphase, hout, hperms⟩ := Hidden.reaches_writeback (M := M) (pos := pos)
    (S := absorbAll (rateOf p.capacity) p.suffix M) (Z := [])
    (B := padBlock (rateOf p.capacity) p.suffix (absorbLoop (rateOf p.capacity) M.length zeroLanes M).2)
    (k := M.length / rateOf p.capacity + 1) hr hemit hn (le_refl p.digestBytes)
  rw [Hidden.absorbed, Nat.zero_add, Nat.sub_zero, List.drop_zero] at hpad
  refine ⟨h, (hpad.trans Hidden.padding_turn).trans hreach, hphase, hout, ?_⟩
  have hceil : (p.digestBytes + rateOf p.capacity - 1) / rateOf p.capacity =
      (p.digestBytes - 1) / rateOf p.capacity + 1 := by
    rw [← Nat.add_div_right _ hr, Nat.sub_add_comm hn]
  rw [hperms, SpongeCall.permutations, hceil, List.length_nil, Nat.sub_zero, Nat.add_assoc, Nat.add_comm 1]

end

/-! The calls that pass the checks -/

/-- A checked call asks for at least one byte, of a capacity that rule R160's table lists. -/
theorem checkedCall_capacity {s : State} {raw : Bool} {p : SpongeCall}
    (h : hashOperands raw s = .ok p ∨ shakeOperands raw s = .ok p) :
    p.capacity ∈ [256, 448, 512, 768, 1024] ∧ 0 < p.digestBytes := by
  rcases h with h | h
  · obtain ⟨rfl, hmd, _, _⟩ := hashOperands_ok h
    simp only [mdLenLegal, Bool.or_eq_true, beq_iff_eq] at hmd
    rcases hmd with ((hmd | hmd) | hmd) | hmd <;> simp [hashCall, SpongeCall.digestBytes, hmd]
  · obtain ⟨rfl, hsec, hout, _, _⟩ := shakeOperands_ok h
    simp only [securityLevelLegal, Bool.or_eq_true, beq_iff_eq] at hsec
    simp only [outLenLegal, Bool.and_eq_true, bne_iff_ne, beq_iff_eq] at hout
    have hbytes : 0 < s.outLen.toNat / 8 := by omega
    rcases hsec with hsec | hsec <;> exact ⟨by simp [shakeCall, hsec], hbytes⟩

/-- The rates of rule R160's table are whole numbers of lanes, at least one and at most 25. -/
theorem rateOf_wholeLanes : ∀ c ∈ [256, 448, 512, 768, 1024], 0 < rateOf c ∧ min (rateOf c / 8) 25 * 8 = rateOf c := by
  decide

theorem Hidden.startPermute_reaches (S : Lanes) :
    ∃ h, (Hidden.startPermute S).Reaches h ∧ h.phase = .writeback ∧ h.work = keccakF S ∧ h.perms = 1 :=
  ⟨_, (Hidden.startPermute S).reaches_permuted.trans (Hidden.reaches_nextMove rfl), rfl, rfl, rfl⟩

/-- Settles O58: the runs of a checked call and of PERMUTE_ONLY. -/
theorem sequencerComputesTheCompletion : Obligations.SequencerComputesTheCompletion := by
  constructor
  · intro s raw p hp
    obtain ⟨hc, hn⟩ := checkedCall_capacity hp
    obtain ⟨hr, hlanes⟩ := rateOf_wholeLanes _ hc
    obtain ⟨_, ⟨n, rfl⟩, hphase, hout, hperms⟩ := Hidden.startSponge_reaches hr
      (fun T => (emitBlock_length _ T).trans hlanes) hn (readMessage s).1
    rw [readMessage_length] at hperms
    exact ⟨n, hphase, hout, hperms⟩
  · intro S
    obtain ⟨_, ⟨n, rfl⟩, hrun⟩ := Hidden.startPermute_reaches S
    exact ⟨n, hrun⟩

end Sys2Proof.Machine
end

section
/-! Host accesses byte by byte (statements O4, O41 to O46 and O57). A read is the bytes of `hostBytes`, a write the bytes of
`writeHostBytes`: one rule for byte k of a run, one for what a run leaves alone; the statements are these rules in their
address ranges. Then a command in flight, whose completion reads no field that a host transaction can change. -/

namespace Sys2Proof.Machine

/-! The step -/

/-- Settles O4: `step_agenda` and `step_agendaEmpty` at the event that is due, and `step_withFetchWord`. -/
theorem stepRunsTheDecodedCommand : Obligations.StepRunsTheDecodedCommand := by
  have hturn {s : State} {w : Word} {i : Instr} (hr : s.rst = false) (hs : s.seq = .running w)
      (hd : decode w = .instr i) : blockTurn s = exec i s := by
    rw [blockTurn_running hr hs, hd]
    rfl
  refine ⟨fun s w i hr hs hd => ⟨fun ha => ?_, fun rest ha => ?_⟩, fun s h => ⟨fun ha => ?_, fun rest ha => ?_⟩,
    fun s tx rest ha => step_agenda ha, fun s w i hd => ?_⟩
  · exact (step_agendaEmpty ha).trans (hturn hr hs hd)
  · exact (step_agenda ha).trans (hturn (s := { s with agenda := rest }) hr hs hd)
  · exact (step_agendaEmpty ha).trans (blockTurn_hold h)
  · exact (step_agenda ha).trans (blockTurn_hold (s := { s with agenda := rest }) h)
  · have hw : BitVec.ofNat 32 (w.toNat % 2 ^ 32) = w := by
      rw [Nat.mod_eq_of_lt w.isLt, BitVec.ofNat_toNat, BitVec.setWidth_eq]
    rw [step_withFetchWord, hw]
    exact hturn rfl rfl hd

/-! Alignment -/

theorem memRead_aligned {s : State} (hr : s.rst = false) {a : Addr} {n : Size} (ha : a.toNat % n.bytes = 0) :
    memRead s a n =
      (fromLE 32 (hostBytes s a.toNat n.bytes s.draws).1, (hostBytes s a.toNat n.bytes s.draws).2) := by
  simp [memRead, hr, ha]

theorem memRead_misaligned {s : State} (hr : s.rst = false) {a : Addr} {n : Size} (ha : a.toNat % n.bytes ≠ 0) :
    memRead s a n = (0, s.draws) := by
  simp [memRead, hr, ha]

theorem memWrite_misaligned (s : State) {a : Addr} {n : Size} (ha : a.toNat % n.bytes ≠ 0) (v : Word) :
    memWrite s a n v = s := by
  simp [memWrite, ha]

/-- An aligned write outside the CSR range while the block is idle. -/
theorem memWrite_bytes {s : State} (hr : s.rst = false) (hb : s.busy = false) {a : Addr} {n : Size}
    (ha : a.toNat % n.bytes = 0) (h : 0x20 ≤ a.toNat) (v : Word) :
    memWrite s a n v = writeHostBytes s a.toNat (toLE n.bytes v) := by
  simp [memWrite, hr, hb, ha, Nat.not_lt_of_le h]

/-- Settles O46: the alignment check comes before every address rule. -/
theorem misalignedAccess : Obligations.MisalignedAccess :=
  fun s _ _ ha => ⟨memWrite_misaligned s ha, fun hr => memRead_misaligned hr ha⟩

theorem Size.bytes_le (n : Size) : n.bytes ≤ 4 := by
  cases n <;> decide

/-- An aligned access does not cross a multiple of 4: a CSR's end, the STATE window's or the address space's. -/
theorem Size.add_bytes_le {n : Size} {a b : Nat} (ha : a % n.bytes = 0) (hb : b % 4 = 0) (h : a < b) : a + n.bytes ≤ b := by
  cases n <;> simp only [Size.bytes] at ha ⊢ <;> omega

/-! Little-endian assembly -/

theorem fromLE_toNat_lt (w : Nat) (bs : List Byte) : (fromLE w bs).toNat < 2 ^ (8 * bs.length) := by
  induction bs with
  | nil => simp [fromLE]
  | cons b bs ih =>
    have hpow : 2 ^ (8 * (bs.length + 1)) = 2 ^ (8 * bs.length) * 2 ^ 8 := by rw [← Nat.pow_add, Nat.mul_add]
    rw [fromLE, BitVec.toNat_or, List.length_cons]
    refine Nat.or_lt_two_pow ?_ ?_
    · rw [BitVec.toNat_setWidth]
      exact (Nat.mod_le _ _).trans_lt (b.isLt.trans_le (Nat.pow_le_pow_right (by decide) (by omega)))
    · rw [BitVec.toNat_shiftLeft, Nat.shiftLeft_eq, hpow]
      exact (Nat.mod_le _ _).trans_lt (Nat.mul_lt_mul_of_pos_right ih (by decide))

/-- An n-byte value put together from its own bytes in a register of any width. -/
theorem fromLE_toLE_setWidth (w : Nat) {n : Nat} (v : BitVec (8 * n)) : fromLE w (toLE n v) = v.setWidth w := by
  refine BitVec.eq_of_getLsbD_eq fun i hi => ?_
  have hb : i % 8 < 8 := Nat.mod_lt _ (by decide)
  rw [BitVec.getLsbD_setWidth, decide_eq_true hi, Bool.true_and, ← Nat.div_add_mod i 8, fromLE_getLsbD _ hb (by omega),
    List.getD_eq_getElem?_getD]
  by_cases hk : i / 8 < n
  · rw [toLE_getElem? v hk, Option.getD_some, BitVec.getLsbD_extractLsb', decide_eq_true hb, Bool.true_and]
  · rw [List.getElem?_eq_none (by rw [toLE_length]; omega), BitVec.getLsbD_of_ge v _ (by omega)]
    exact BitVec.getLsbD_zero

/-! Reads -/

/-- Byte k of a run of host bytes is read by the rule of its own region, at the number of draws then due (rule R71). -/
theorem hostBytes_getElem? (s : State) {a n d k : Nat} (hk : k < n) :
    (hostBytes s a n d).1[k]? = some (hostByte s (a + k) (hostBytes s a k d).2) := by
  induction n generalizing a d k with
  | zero => exact absurd hk (Nat.not_lt_zero k)
  | succ n ih =>
    cases k with
    | zero => rfl
    | succ k =>
      have hrest := ih (a := a + 1) (d := hostByteDraws s a d) (Nat.lt_of_succ_lt_succ hk)
      rw [Nat.add_assoc, Nat.add_comm 1 k] at hrest
      exact hrest

theorem hostBytes_succ_draws (s : State) (a k d : Nat) :
    (hostBytes s a (k + 1) d).2 = hostByteDraws s (a + k) (hostBytes s a k d).2 := by
  induction k generalizing a d with
  | zero => rfl
  | succ k ih =>
    have hrest := ih (a + 1) (hostByteDraws s a d)
    rw [Nat.add_assoc, Nat.add_comm 1 k] at hrest
    exact hrest

theorem memRead_toNat_lt {s : State} (hr : s.rst = false) {a : Addr} {n : Size} (ha : a.toNat % n.bytes = 0) :
    (memRead s a n).1.toNat < 2 ^ (8 * n.bytes) := by
  have hlt := fromLE_toNat_lt 32 (hostBytes s a.toNat n.bytes s.draws).1
  rw [hostBytes_length] at hlt
  rw [memRead_aligned hr ha]
  exact hlt

/-- Byte k of an aligned read (rules R68, R71). -/
theorem memRead_byte {s : State} (hr : s.rst = false) {a : Addr} {n : Size} (ha : a.toNat % n.bytes = 0) {k : Nat}
    (hk : k < n.bytes) : (memRead s a n).1.extractLsb' (8 * k) 8 =
      hostByte s (a.toNat + k) (hostBytes s a.toNat k s.draws).2 := by
  have hn := n.bytes_le
  rw [memRead_aligned hr ha, fromLE_byte _ (by omega), List.getD_eq_getElem?_getD, hostBytes_getElem? s hk,
    Option.getD_some]

/-- A one-byte read at the d-th draw. -/
theorem memRead_one_withDraws {s : State} (hr : s.rst = false) (a : Addr) (d : Nat) :
    memRead { s with draws := d } a .one = ((hostByte s a.toNat d).setWidth 32, hostByteDraws s a.toNat d) :=
  memRead_one (s := { s with draws := d }) hr a

/-- Settles O42: the draws before byte k are those of the k bytes below it. -/
theorem readIsLittleEndian : Obligations.ReadIsLittleEndian := by
  intro s a n hr ha
  refine ⟨memRead_toNat_lt hr ha, fun k => (hostBytes s a.toNat k s.draws).2, rfl, ?_, fun k hk => ?_⟩
  · rw [memRead_aligned hr ha]
  · have hend : a.toNat + n.bytes ≤ 2 ^ 16 := Size.add_bytes_le ha (by decide) a.isLt
    have hadd : (a + BitVec.ofNat 16 k).toNat = a.toNat + k := by
      rw [BitVec.toNat_add, BitVec.toNat_ofNat]
      omega
    simp only [memRead_one_withDraws hr, hadd, memRead_byte hr ha hk, hostBytes_succ_draws]

/-- An aligned read whose bytes take no draw and are those of the n-byte value v returns v. -/
theorem memRead_of_bytes {s : State} (hr : s.rst = false) {a : Addr} {n : Size} (ha : a.toNat % n.bytes = 0)
    (hd : ∀ k d, k < n.bytes → hostByteDraws s (a.toNat + k) d = d) (v : BitVec (8 * n.bytes))
    (hv : ∀ k d, k < n.bytes → hostByte s (a.toNat + k) d = v.extractLsb' (8 * k) 8) :
    memRead s a n = (v.setWidth 32, s.draws) := by
  have hbytes : (hostBytes s a.toNat n.bytes s.draws).1 = toLE n.bytes v := by
    refine List.ext_getElem? fun k => ?_
    by_cases hk : k < n.bytes
    · rw [hostBytes_getElem? s hk, toLE_getElem? v hk, hv k _ hk]
    · rw [List.getElem?_eq_none (by rw [hostBytes_length]; omega), List.getElem?_eq_none (by rw [toLE_length]; omega)]
  rw [memRead_aligned hr ha, hbytes, fromLE_toLE_setWidth, hostBytes_noDraw hd]

/-- An aligned read inside one CSR returns those bytes of its value (rule R67). -/
theorem memRead_csrBytes {s : State} (hr : s.rst = false) {a : Addr} (hlt : a.toNat < 0x20) {n : Size}
    (ha : a.toNat % n.bytes = 0) :
    memRead s a n =
      (((csrValue s (csrAt (a.toNat / 4))).extractLsb' (8 * (a.toNat % 4)) (8 * n.bytes)).setWidth 32, s.draws) := by
  have hreg : a.toNat + n.bytes ≤ 4 * (a.toNat / 4 + 1) := Size.add_bytes_le ha (by omega) (by omega)
  refine memRead_of_bytes hr ha (fun k d hk => hostByteDraws_csr s (by omega) d) _ fun k d hk => ?_
  have hq : (a.toNat + k) / 4 = a.toNat / 4 := by omega
  have hb : 8 * ((a.toNat + k) % 4) = 8 * (a.toNat % 4) + 8 * k := by omega
  rw [hostByte_csr s (by omega), hq, hb]
  refine BitVec.eq_of_getLsbD_eq fun j hj => ?_
  have hj' : 8 * k + j < 8 * n.bytes := by omega
  simp [hj, hj', Nat.add_assoc]

theorem memWrite_subWordCsr (s : State) {a : Addr} (hlt : a.toNat < 0x20) {n : Size} (hn : n ≠ .four) (v : Word) :
    memWrite s a n v = s := by
  rcases memWrite_cases s a n v with e | ⟨_, _, h4, _⟩ | ⟨_, _, _, hge, _⟩
  · exact e
  · exact absurd h4 hn
  · omega

/-- Settles O41: only a 4-byte write reaches a CSR; a read is `memRead_csrBytes` at sizes 1 and 2. -/
theorem subWordCsrAccess : Obligations.SubWordCsrAccess := by
  intro s a hlt
  refine ⟨fun v => ⟨memWrite_subWordCsr s hlt (by decide) v, memWrite_subWordCsr s hlt (by decide) v⟩,
    fun hr => ⟨?_, fun ha => ?_⟩⟩
  · exact congrArg Prod.fst (memRead_one_csr hr hlt)
  · exact congrArg Prod.fst (memRead_csrBytes hr hlt (n := .two) ha)

/-! Writes: one byte -/

theorem writeHostByte_cfg (s : State) (a : Nat) (b : Byte) : (writeHostByte s a b).cfg = s.cfg := by
  rcases writeHostByte_cases s a b with ⟨i, k, e⟩ | ⟨_, e⟩ | e <;> rw [e]

theorem writeHostByte_reserved {s : State} {a : Nat} (h : regionOf s.cfg a = .reserved) (b : Byte) :
    writeHostByte s a b = s := by
  simp [writeHostByte, h]

/-- Above the STATE window a byte is stored if it lies in a buffer, and lost if not (rules R61, R62). -/
theorem writeHostByte_above {s : State} (hc : s.cfg.legal = true) {a : Nat} (h : 0x1C8 ≤ a) (b : Byte) :
    writeHostByte s a b = if (inIbuf s.cfg a || inObuf s.cfg a) = true then { s with mem := s.mem.set a b } else s := by
  split
  · rename_i hin
    rcases Bool.or_eq_true_iff.mp hin with hi | ho
    · simp [writeHostByte, regionOf_ibuf hi]
    · simp [writeHostByte, regionOf_obuf hc ho]
  · rename_i hout
    exact writeHostByte_reserved (regionOf_reserved (by omega) (by omega) (Bool.not_eq_true _ ▸ hout)) b

theorem writeHostByte_above_lanes {s : State} (hc : s.cfg.legal = true) {a : Nat} (h : 0x1C8 ≤ a) (b : Byte) :
    (writeHostByte s a b).lanes = s.lanes := by
  rw [writeHostByte_above hc h]
  split <;> rfl

theorem writeHostByte_above_get? {s : State} (hc : s.cfg.legal = true) {a : Nat} (h : 0x1C8 ≤ a) (b : Byte) (y : Nat) :
    (writeHostByte s a b).mem.get? y =
      if y = a ∧ (inIbuf s.cfg y || inObuf s.cfg y) = true then some b else s.mem.get? y := by
  rw [writeHostByte_above hc h]
  by_cases hy : y = a
  · subst hy
    split <;> simp [*, Memory.get?_set]
  · split <;> simp [hy, Memory.get?_set]

theorem regionOf_laneByte (c : Config) (i : Fin 25) {k : Nat} (hk : k < 8) :
    regionOf c (0x100 + 8 * i.val + k) = .lane i k := by
  have hi : (0x100 + 8 * i.val + k - 0x100) / 8 = i.val := by omega
  have hk' : (0x100 + 8 * i.val + k - 0x100) % 8 = k := by omega
  rw [regionOf_lane (by omega), hk']
  simp only [hi]

/-- A byte of the STATE window changes the lanes only. -/
theorem writeHostByte_window_mem {s : State} {a : Nat} (h : 0x100 ≤ a ∧ a < 0x1C8) (b : Byte) :
    (writeHostByte s a b).mem = s.mem := by
  simp [writeHostByte, regionOf_lane h]

/-- A byte of the STATE window replaces the lane byte at its address and keeps every other (rule R63). -/
theorem writeHostByte_window_laneByte {s : State} {a : Nat} (h : 0x100 ≤ a ∧ a < 0x1C8) (b : Byte) (i : Fin 25) {k : Nat}
    (hk : k < 8) : laneByte (writeHostByte s a b).lanes[i] k =
      if 0x100 + 8 * i.val + k = a then b else laneByte s.lanes[i] k := by
  by_cases hi : (a - 0x100) / 8 = i.val
  · have hat : 0x100 + 8 * i.val + k = a ↔ k = (a - 0x100) % 8 := by omega
    simp [writeHostByte, regionOf_lane h, hi, hat, laneByte, setLaneByte_byte _ _ hk]
  · have hat : 0x100 + 8 * i.val + k ≠ a := by omega
    simp [writeHostByte, regionOf_lane h, hi, hat]

/-! Writes: a run of bytes -/

/-- What every byte of a run leaves as it is, the whole run does. -/
theorem writeHostBytes_keeps {α : Type} (f : State → α) {s : State} {a : Nat} {bs : List Byte}
    (h : ∀ (t : State) (x : Nat) (b : Byte), t.cfg = s.cfg → a ≤ x → x < a + bs.length →
      f (writeHostByte t x b) = f t) : f (writeHostBytes s a bs) = f s := by
  induction bs generalizing s a with
  | nil => rfl
  | cons b bs ih =>
    rw [List.length_cons] at h
    have hrest : f (writeHostBytes (writeHostByte s a b) (a + 1) bs) = f (writeHostByte s a b) :=
      ih fun t x c hc hlo hhi => h t x c (hc.trans (writeHostByte_cfg s a b)) (by omega) (by omega)
    exact hrest.trans (h s a b rfl (le_refl a) (by omega))

/-- A run of bytes changes the lanes and the buffer memory only. -/
theorem writeHostBytes_eq (s : State) (a : Nat) (bs : List Byte) : writeHostBytes s a bs =
    { s with lanes := (writeHostBytes s a bs).lanes, mem := (writeHostBytes s a bs).mem } := by
  obtain ⟨L, m, e⟩ := writeHostBytes_frame s a bs
  rw [e]

/-- The run bs laid from a + 1 on over the byte b at a, with o below and above, is the run b :: bs laid from a on over o. -/
theorem getElem?_run_cons (a : Nat) (b : Byte) (bs : List Byte) (x : Nat) (o : Option Byte) :
    (if a + 1 ≤ x ∧ x < a + 1 + bs.length then bs[x - (a + 1)]? else if x = a then some b else o) =
      if a ≤ x ∧ x < a + (b :: bs).length then (b :: bs)[x - a]? else o := by
  rw [List.length_cons]
  by_cases hx : x = a
  · subst hx
    simp
  · by_cases hin : a + 1 ≤ x ∧ x < a + 1 + bs.length
    · have hin' : a ≤ x ∧ x < a + (bs.length + 1) := by omega
      have hsub : x - a = x - (a + 1) + 1 := by omega
      rw [if_pos hin, if_pos hin', hsub, List.getElem?_cons_succ]
    · have hin' : ¬ (a ≤ x ∧ x < a + (bs.length + 1)) := by omega
      rw [if_neg hin, if_neg hx, if_neg hin']

/-- What a buffer byte holds after a run of bytes above the STATE window: its byte of the run, or what it held. -/
theorem writeHostBytes_above_get? {s : State} (hc : s.cfg.legal = true) {a : Nat} (h : 0x1C8 ≤ a) (bs : List Byte)
    (y : Nat) : (writeHostBytes s a bs).mem.get? y =
      if (a ≤ y ∧ y < a + bs.length) ∧ (inIbuf s.cfg y || inObuf s.cfg y) = true then bs[y - a]?
      else s.mem.get? y := by
  induction bs generalizing s a with
  | nil => simp [writeHostBytes]
  | cons b bs ih =>
    have hcfg := writeHostByte_cfg s a b
    rw [writeHostBytes, ih (hcfg ▸ hc) (by omega), hcfg, writeHostByte_above_get? hc h]
    by_cases hin : (inIbuf s.cfg y || inObuf s.cfg y) = true
    · simp only [hin, and_true]
      exact getElem?_run_cons a b bs y (s.mem.get? y)
    · simp only [hin, Bool.false_eq_true, and_false, if_false]

/-- Settles O43: the bytes of the run in the buffers, and its frame. -/
theorem bufferWriteStoresEachByte : Obligations.BufferWriteStoresEachByte := by
  intro s a n v hc hr hb ha hlo
  have hw : hostTx (.write a n v) s = writeHostBytes s a.toNat (toLE n.bytes v) :=
    memWrite_bytes hr hb ha (by omega) v
  have hlanes : (writeHostBytes s a.toNat (toLE n.bytes v)).lanes = s.lanes :=
    writeHostBytes_keeps State.lanes fun t x b ht hx _ => writeHostByte_above_lanes (ht ▸ hc) (hlo.trans hx) b
  have heq := writeHostBytes_eq s a.toNat (toLE n.bytes v)
  rw [hlanes] at heq
  rw [hw]
  refine ⟨fun k hk hin => ?_, fun x hx => ?_, heq⟩
  · rw [writeHostBytes_above_get? hc hlo, toLE_length, if_pos ⟨by omega, hin⟩, Nat.add_sub_cancel_left, toLE_getElem? v hk]
  · rw [writeHostBytes_above_get? hc hlo, toLE_length, if_neg]
    rintro ⟨hrange, hin⟩
    rcases hx with hx | hx | hx
    · omega
    · omega
    · exact absurd (hin.symm.trans hx) (by decide)

/-- What a lane byte is after a run of bytes in the STATE window: its byte of the run, or what it was. -/
theorem writeHostBytes_window_laneByte {s : State} {a : Nat} {bs : List Byte} (hlo : 0x100 ≤ a)
    (hhi : a + bs.length ≤ 0x1C8) (i : Fin 25) {k : Nat} (hk : k < 8) {x : Nat} (hx : 0x100 + 8 * i.val + k = x) :
    some (laneByte (writeHostBytes s a bs).lanes[i] k) =
      if a ≤ x ∧ x < a + bs.length then bs[x - a]? else some (laneByte s.lanes[i] k) := by
  induction bs generalizing s a with
  | nil => rw [if_neg (by rw [List.length_nil]; omega), writeHostBytes]
  | cons b bs ih =>
    rw [List.length_cons] at hhi
    rw [writeHostBytes, ih (by omega) (by omega), writeHostByte_window_laneByte ⟨hlo, by omega⟩ b i hk, hx,
      apply_ite some]
    exact getElem?_run_cons a b bs x (some (laneByte s.lanes[i] k))

theorem hostByte_window {s : State} (hb : s.busy = false) (i : Fin 25) {k : Nat} (hk : k < 8) (d : Nat) :
    hostByte s (0x100 + 8 * i.val + k) d = laneByte s.lanes[i] k := by
  simp [hostByte, regionOf_laneByte s.cfg i hk, hb]

theorem hostByteDraws_window {s : State} (hb : s.busy = false) {a : Nat} (h : 0x100 ≤ a ∧ a < 0x1C8) (d : Nat) :
    hostByteDraws s a d = d := by
  simp [hostByteDraws, regionOf_lane h, hb]

/-- Settles O44: the bytes of the read and of the run written, and the run's frame. The window ends at a multiple of 4, so
the access lies in it whole. -/
theorem stateWindowBytes : Obligations.StateWindowBytes := by
  intro s a n v hr hb ha hlo hhi
  have hend : a.toNat + n.bytes ≤ 0x1C8 := Size.add_bytes_le ha (by decide) hhi
  have hw : hostTx (.write a n v) s = writeHostBytes s a.toNat (toLE n.bytes v) :=
    memWrite_bytes hr hb ha (by omega) v
  have hmem : (writeHostBytes s a.toNat (toLE n.bytes v)).mem = s.mem := by
    refine writeHostBytes_keeps State.mem fun t x b _ hx hx' => ?_
    rw [toLE_length] at hx'
    exact writeHostByte_window_mem ⟨by omega, by omega⟩ b
  have heq := writeHostBytes_eq s a.toNat (toLE n.bytes v)
  rw [hmem] at heq
  have hd : ∀ k d, k < n.bytes → hostByteDraws s (a.toNat + k) d = d :=
    fun k d hk => hostByteDraws_window hb ⟨by omega, by omega⟩ d
  rw [hw]
  refine ⟨memRead_noDraw hr hd, memRead_toNat_lt hr ha, heq, fun i k hk => ?_⟩
  have hbyte := writeHostBytes_window_laneByte (s := s) (bs := toLE n.bytes v) hlo (by rwa [toLE_length]) i hk rfl
  rw [toLE_length] at hbyte
  refine ⟨fun hx hx' => ⟨?_, ?_⟩, fun hx => ?_⟩
  · have hread := memRead_byte hr ha (k := 0x100 + 8 * i.val + k - a.toNat) (by omega)
    rwa [Nat.add_sub_cancel' hx, hostByte_window hb i hk] at hread
  · rw [if_pos ⟨hx, hx'⟩, toLE_getElem? v (by omega)] at hbyte
    exact Option.some.inj hbyte
  · rw [if_neg (by omega)] at hbyte
    exact Option.some.inj hbyte

/-- Settles O45: every byte of the access has the region `reserved`, which reads 0 without a draw and stores nothing. -/
theorem reservedBytes : Obligations.ReservedBytes := by
  intro s a n hc hr ha hres
  have hcfg := (legal_iff s.cfg).mp hc
  have hn : 0 < n.bytes := by cases n <;> decide
  have hregion : ∀ x, a.toNat ≤ x → x < a.toNat + n.bytes → regionOf s.cfg x = .reserved := by
    intro x hlo hhi
    have hx := hres x hlo hhi
    refine regionOf_reserved (by omega) (by omega) (Bool.or_eq_false_iff.mpr ⟨?_, ?_⟩)
    · exact decide_eq_false (by unfold ibufBase; omega)
    · exact decide_eq_false (by unfold obufBase; omega)
  constructor
  · have hzero : (0 : BitVec (8 * n.bytes)).setWidth 32 = 0 := BitVec.setWidth_zero _ _
    rw [← hzero]
    refine memRead_of_bytes hr ha (fun k d hk => ?_) 0 fun k d hk => ?_
    · simp [hostByteDraws, hregion (a.toNat + k) (by omega) (by omega)]
    · simp [hostByte, hregion (a.toNat + k) (by omega) (by omega)]
  · intro v
    change memWrite s a n v = s
    by_cases hb : s.busy = true
    · exact memWrite_busy hb a n v
    · have hlo := hres a.toNat (le_refl _) (by omega)
      rw [memWrite_bytes hr (Bool.not_eq_true _ ▸ hb) ha (by omega) v]
      refine writeHostBytes_keeps id fun t x b ht hx hx' => writeHostByte_reserved ?_ b
      rw [toLE_length] at hx'
      rw [ht]
      exact hregion x hx hx'

/-! A command in flight -/

/-- While BUSY = 1 any number of host transactions change nothing but the bus data lines and the draw count. -/
theorem hostTxs_busy (txs : List Tx) {s : State} (h : s.busy = true) :
    ∃ v d, txs.foldl (fun s tx => hostTx tx s) s = { s with rdata := v, draws := d } := by
  induction txs generalizing s with
  | nil => exact ⟨s.rdata, s.draws, rfl⟩
  | cons tx txs ih =>
    obtain ⟨v, d, e⟩ := hostTx_busy tx h
    rw [List.foldl_cons, e]
    exact ih (s := { s with rdata := v, draws := d }) h

/-- Every byte of the message has been written since reset. -/
def State.messageWritten (s : State) : Prop := ∀ k, k < s.inLen.toNat → (s.mem.get? (0x4000 + k)).isSome

theorem digest_withBus {s : State} (h : s.messageWritten) (v : Word) (d : Nat) (p : SpongeCall) :
    digest p { s with rdata := v, draws := d } = digest p s := by
  simp only [digest, readMessage, ibufBase, Memory.readBytes_of_written h]

/-- The completion of a HASH or SHAKE does not depend on the bus data lines, nor, when it fails or its message has been
written, on the draw count. -/
theorem runSponge_withBus {c : Except ErrCode SpongeCall} {s t : State} (h : runSponge c s = .next t)
    (hm : t.err = .ok → s.messageWritten) (v : Word) (d : Nat) :
    ∃ e, runSponge c { s with rdata := v, draws := d } = .next { t with rdata := v, draws := e } := by
  rcases runSponge_next h with ⟨e, rfl, rfl⟩ | ⟨p, rfl, rfl⟩
  · exact ⟨d, rfl⟩
  · refine ⟨(readMessage { s with rdata := v, draws := d }).2, ?_⟩
    have hdig := digest_withBus (hm rfl) v d p
    simp only [runSponge, spongeEffect, hdig]
    rfl

theorem exec_withBus {i : Instr} {s t : State} (h : exec i s = .next t)
    (hm : ∀ raw, i = .hash raw ∨ i = .shake raw → t.err = .ok → s.messageWritten) (v : Word) (d : Nat) :
    ∃ e, exec i { s with rdata := v, draws := d } = .next { t with rdata := v, draws := e } := by
  cases i with
  | hash raw => exact runSponge_withBus h (hm raw (.inl rfl)) v d
  | shake raw => exact runSponge_withBus h (hm raw (.inr rfl)) v d
  | permute raw => cases h; exact ⟨d, rfl⟩
  | clear raw => cases h; exact ⟨d, rfl⟩

theorem execDecoded_withBus {c : Decoded} {s t : State} (h : execDecoded c s = .next t)
    (hm : ∀ raw, c = .instr (.hash raw) ∨ c = .instr (.shake raw) → t.err = .ok → s.messageWritten) (v : Word) (d : Nat) :
    ∃ e, execDecoded c { s with rdata := v, draws := d } = .next { t with rdata := v, draws := e } := by
  cases c with
  | instr i => exact exec_withBus h (fun raw hi => hm raw (hi.imp (congrArg _) (congrArg _))) v d
  | illegal why => cases h; exact ⟨d, rfl⟩

/-- Settles O57: the transactions change the bus data lines and the draw count, and those reach no other field of the
completion. -/
theorem commandInFlightIsFixed : Obligations.CommandInFlightIsFixed := by
  intro s t u w txs hr hs ht hm hu
  obtain ⟨v, d, hbus⟩ := hostTxs_busy txs (busy_running hs)
  rw [blockTurn_running hr hs] at ht
  obtain ⟨e, hcompletion⟩ := execDecoded_withBus ht hm v d
  rw [hbus, blockTurn_running (s := { s with rdata := v, draws := d }) hr hs, hcompletion] at hu
  cases hu
  exact ⟨rfl, rfl, rfl, rfl, rfl, rfl, rfl⟩

end Sys2Proof.Machine
end

section
/-! The command word (statements O1 to O3): its fields as numbers, the fields of a written word and the word of its fields, and
what the decoder can answer, said once. -/

namespace Sys2Proof

/-! The fields as numbers -/

theorem cmdWord_toNat (raw : Bool) (op : Nibble) : (cmdWord raw op).toNat = 16 * raw.toNat + op.toNat := by
  have hhi : (0#27 ++ BitVec.ofBool raw).toNat = raw.toNat := by
    cases raw <;> rfl
  change (0#27 ++ BitVec.ofBool raw ++ op).toNat = _
  rw [BitVec.toNat_append, ← Nat.shiftLeft_add_eq_or_of_lt op.isLt, Nat.shiftLeft_eq, hhi, Nat.mul_comm]

theorem opField_toNat (w : Word) : (opField w).toNat = w.toNat % 16 := by
  simp [opField]

theorem rawField_toNat (w : Word) : (rawField w).toNat = w.toNat / 16 % 2 := by
  rw [rawField, BitVec.getLsbD, Nat.toNat_testBit]

theorem rsvField_eq_zero_iff (w : Word) : rsvField w = 0 ↔ w.toNat < 32 := by
  have hw := w.isLt
  rw [← BitVec.toNat_inj, rsvField, BitVec.extractLsb'_toNat, Nat.shiftRight_eq_div_pow]
  change w.toNat / 32 % 2 ^ 27 = 0 ↔ _
  omega

/-! The fields of a written word, and the word of its fields (rule R90) -/

@[simp] theorem opField_cmdWord (raw : Bool) (op : Nibble) : opField (cmdWord raw op) = op := by
  apply BitVec.eq_of_toNat_eq
  rw [opField_toNat, cmdWord_toNat]
  omega

@[simp] theorem rawField_cmdWord (raw : Bool) (op : Nibble) : rawField (cmdWord raw op) = raw := by
  have h := rawField_toNat (cmdWord raw op)
  rw [cmdWord_toNat, Nat.mul_add_div (by decide), Nat.div_eq_of_lt op.isLt] at h
  revert h
  cases raw <;> simp

@[simp] theorem rsvField_cmdWord (raw : Bool) (op : Nibble) : rsvField (cmdWord raw op) = 0 := by
  have hraw := raw.toNat_le
  rw [rsvField_eq_zero_iff, cmdWord_toNat]
  omega

theorem cmdWord_of_fields {w : Word} {op : Nibble} (hrsv : rsvField w = 0) (hop : opField w = op) :
    cmdWord (rawField w) op = w := by
  have hw := (rsvField_eq_zero_iff w).mp hrsv
  apply BitVec.eq_of_toNat_eq
  rw [← hop, cmdWord_toNat, rawField_toNat, opField_toNat]
  omega

/-! The decoder -/

theorem decode_encode (i : Instr) : decode (encode i) = .instr i := by
  cases i <;> simp [encode, decode]

/-- A word of rule R94: a 1 in bits [31:5], or an OP that names no command. -/
def ReservedWord (w : Word) : Prop := w.toNat % 16 = 0 ∨ 5 ≤ w.toNat % 16 ∨ 32 ≤ w.toNat

/-- What the decoder can answer: the instruction whose word this is, or the reason why a reserved word is reserved. -/
theorem decode_cases (w : Word) :
    (∃ i, decode w = .instr i ∧ encode i = w) ∨ (∃ why, decode w = .illegal why ∧ ReservedWord w) := by
  unfold decode
  split_ifs with hrsv hhash hshake hpermute hclear
  · rw [ne_eq, rsvField_eq_zero_iff, Nat.not_lt] at hrsv
    exact .inr ⟨_, rfl, .inr (.inr hrsv)⟩
  · exact .inl ⟨_, rfl, cmdWord_of_fields (not_not.mp hrsv) hhash⟩
  · exact .inl ⟨_, rfl, cmdWord_of_fields (not_not.mp hrsv) hshake⟩
  · exact .inl ⟨_, rfl, cmdWord_of_fields (not_not.mp hrsv) hpermute⟩
  · exact .inl ⟨_, rfl, cmdWord_of_fields (not_not.mp hrsv) hclear⟩
  · simp only [← BitVec.toNat_inj, opField_toNat, BitVec.reduceToNat] at hhash hshake hpermute hclear
    refine .inr ⟨_, rfl, ?_⟩
    unfold ReservedWord
    omega

/-- The four constructors of `Laws.ReservedZero`, as one statement. -/
theorem encode_not_reserved (i : Instr) : ¬ ReservedWord (encode i) := by
  have h : Laws.ReservedZero.Statement i := by
    cases i with
    | hash raw => exact Laws.ReservedZero.hash raw
    | shake raw => exact Laws.ReservedZero.shake raw
    | permute raw => exact Laws.ReservedZero.permute raw
    | clear raw => exact Laws.ReservedZero.clear raw
  obtain ⟨hrsv, hlo, hhi⟩ := h
  unfold ReservedWord
  omega

theorem decode_reserved {w : Word} (h : ReservedWord w) : ∃ why, decode w = .illegal why := by
  rcases decode_cases w with ⟨i, _, rfl⟩ | ⟨why, hwhy, _⟩
  · exact absurd h (encode_not_reserved i)
  · exact ⟨why, hwhy⟩

theorem decode_not_reserved {w : Word} (h : ¬ ReservedWord w) : ∃ i, decode w = .instr i := by
  rcases decode_cases w with ⟨i, hi, _⟩ | ⟨_, _, hw⟩
  · exact ⟨i, hi⟩
  · exact absurd hw h

/-! The statements -/

/-- Settles O2: `decode_encode`, and the word that `decode_cases` gives. -/
theorem decodeExactlyTheEncodedWord : Obligations.DecodeExactlyTheEncodedWord := by
  intro w i
  constructor
  · intro h
    rcases decode_cases w with ⟨j, hj, rfl⟩ | ⟨why, hwhy, _⟩
    · rw [hj] at h
      rw [Decoded.instr.inj h]
    · rw [hwhy] at h
      cases h
  · rintro rfl
    exact decode_encode i

/-- Settles O1: the words of the map are the encodings of the commands, and four reserved words are evaluated. -/
theorem opcodeMapWordsDecode : Obligations.OpcodeMapWordsDecode :=
  ⟨decode_encode (.hash false), decode_encode (.hash true), decode_encode (.shake false), decode_encode (.shake true),
    decode_encode (.permute false), decode_encode (.permute true), decode_encode (.clear false), decode_encode (.clear true),
    by decide, by decide, by decide, by decide⟩

namespace Machine

/-- The block's turn on a reserved word (rules R203, R223). -/
theorem blockTurn_reserved {s : State} {w : Word} (hw : ReservedWord w) (hr : s.rst = false) (hs : s.seq = .running w) :
    blockTurn s = .next { s with seq := .idle, done := true, err := .illegalCmd, outCount := 0 } := by
  obtain ⟨why, hwhy⟩ := decode_reserved hw
  rw [blockTurn_running hr hs, hwhy]
  rfl

/-- Settles O3: the block's turn on a reserved word is the step, with an empty agenda or the turn at its head; and a word that is
not reserved is an instruction's. -/
theorem reservedWordsCompleteAsIllegal : Obligations.ReservedWordsCompleteAsIllegal := by
  refine ⟨fun w s hw hr hs => ⟨fun ha => ?_, fun rest ha => ?_⟩, fun w hlo hhi hrsv => decode_not_reserved ?_⟩
  · exact (step_agendaEmpty ha).trans (blockTurn_reserved hw hr hs)
  · exact (step_agenda ha).trans (blockTurn_reserved (s := { s with agenda := rest }) hw hr hs)
  · unfold ReservedWord
    omega

end Machine

end Sys2Proof
end

section
/-! The permutation (statements O5 to O11). What each step mapping makes of one lane is a rule of `Laws/Keccak.lean`, but for
ρ + π, whose loop needs an invariant. Then no step mapping maps two states to one, so the rounds and Keccak-f do not either. -/

namespace Sys2Proof.Machine

/-! Rotation (rule R124) -/

theorem rotl64_eq_rotateLeft (v : Lane) (n : Nat) : rotl64 v n = v.rotateLeft n := by
  rw [rotl64, BitVec.rotateLeft_def]
  split
  · next h => rw [h, BitVec.ushiftRight_eq_zero (le_refl 64), BitVec.shiftLeft_zero, BitVec.or_zero]
  · rfl

theorem rotl64_getLsbD (v : Lane) (n : Nat) {j : Nat} (hj : j < 64) :
    (rotl64 v n).getLsbD j = v.getLsbD ((j + 64 - n % 64) % 64) := by
  rw [rotl64_eq_rotateLeft, BitVec.getLsbD_rotateLeft]
  by_cases h : j < n % 64
  · have hi : 64 - n % 64 + j = (j + 64 - n % 64) % 64 := by omega
    simp [h, hi]
  · have hi : j - n % 64 = (j + 64 - n % 64) % 64 := by omega
    simp [h, hi, hj]

/-- Settles O5: `BitVec.rotateLeft` bit by bit. -/
theorem rotationMovesEachBit : Obligations.RotationMovesEachBit :=
  fun v n _ hj => rotl64_getLsbD v n hj

theorem rotl64_xor (v w : Lane) (n : Nat) : rotl64 (v ^^^ w) n = rotl64 v n ^^^ rotl64 w n :=
  BitVec.eq_of_getLsbD_eq fun j hj => by simp only [BitVec.getLsbD_xor, rotl64_getLsbD _ _ hj]

theorem rotl64_rotl64 (v : Lane) (m n : Nat) : rotl64 (rotl64 v m) n = rotl64 v (m + n) := by
  refine BitVec.eq_of_getLsbD_eq fun j hj => ?_
  have hi : ((j + 64 - n % 64) % 64 + 64 - m % 64) % 64 = (j + 64 - (m + n) % 64) % 64 := by omega
  rw [rotl64_getLsbD _ _ hj, rotl64_getLsbD _ _ (Nat.mod_lt _ (by decide)), rotl64_getLsbD _ _ hj, hi]

theorem rotl64_of_mod_eq_zero (v : Lane) {n : Nat} (h : n % 64 = 0) : rotl64 v n = v := if_pos h

theorem rotl64_injective (n : Nat) : Function.Injective (rotl64 · n) := by
  have hback : Function.LeftInverse (rotl64 · (64 - n % 64)) (rotl64 · n) := fun v => by
    simp only [rotl64_rotl64]
    exact rotl64_of_mod_eq_zero v (by omega)
  exact hback.injective

/-! θ (rule R126) -/

theorem theta_laneIdx (S : Lanes) (x y : Fin 5) : (theta S)[laneIdx x y] =
    S[laneIdx x y] ^^^ ((thetaC S)[x - 1] ^^^ rotl64 (thetaC S)[x + 1] 1) := by
  simp only [theta_get, laneX_laneIdx, thetaD_get]

/-- Five equal lanes have the parity of one, and it cancels against the lane. -/
theorem theta_replicate (v : Lane) : theta (Vector.replicate 25 v) = Vector.replicate 25 (rotl64 v 1) := by
  refine lanes_ext fun i => ?_
  rw [← laneIdx_laneX_laneY i, theta_laneIdx, thetaC_get, thetaC_get]
  simp

/-- Settles O6: `theta_laneIdx`, and rotation keeps 0 and the all-ones lane. -/
theorem thetaXorsColumnParities : Obligations.ThetaXorsColumnParities := by
  refine ⟨fun S x y => ?_, theta_replicate _, theta_replicate _⟩
  rw [theta_laneIdx, thetaC_get, thetaC_get]

/-! ρ + π (rules R128, R129) -/

theorem foldl_take_finRange {β : Type} {n k : Nat} (f : β → Fin n → β) (b : β) (hk : k < n) :
    ((List.finRange n).take (k + 1)).foldl f b = f (((List.finRange n).take k).foldl f b) ⟨k, hk⟩ := by
  rw [List.take_add_one, List.getElem?_eq_getElem (by simpa using hk), List.getElem_finRange]
  simp

/-- Rule R129's src(i): the lane that step i moves. -/
def rhoPiSource (i : Fin 24) : Fin 25 := if i = 0 then 1 else piln[i - 1]

/-- Rule R129's rotation by source lane, row after row. -/
def rhoOffset : Vector Nat 25 :=
  #v[0, 1, 62, 28, 27, 36, 44, 6, 55, 20, 3, 10, 43, 25, 39, 41, 45, 15, 21, 8, 18, 2, 61, 56, 14]

theorem piln_injective : ∀ i j : Fin 24, piln[i] = piln[j] → i = j := by decide

theorem piln_ne_zero : ∀ i : Fin 24, piln[i] ≠ 0 := by decide

theorem rhoPiSource_succ : ∀ i k : Fin 24, i.val = k.val + 1 → rhoPiSource i = piln[k] := by decide

/-- Each lane but (0, 0) is the source of one step, which sends it to (y, 2x + 3y) by the table's rotation. -/
theorem rhoPi_step_of_source : ∀ x y : Fin 5, (x = 0 ∧ y = 0) ∨ ∃ i : Fin 24,
    rhoPiSource i = laneIdx x y ∧ piln[i] = laneIdx y (2 * x + 3 * y) ∧ rotc[i] = rhoOffset[laneIdx x y] := by
  decide

/-- Before step k of the loop on S: the destinations of the earlier steps hold their rotated sources, the other lanes are
those of S, and the carried lane is the source of step k. -/
structure RhoPiBefore (S : Lanes) (k : Nat) (st : Lanes × Lane) : Prop where
  moved : ∀ i : Fin 24, i.val < k → st.1[piln[i]] = rotl64 S[rhoPiSource i] rotc[i]
  kept : ∀ j : Fin 25, (∀ i : Fin 24, i.val < k → piln[i] ≠ j) → st.1[j] = S[j]
  carried : ∀ i : Fin 24, i.val = k → st.2 = S[rhoPiSource i]

theorem rhoPiBefore_start (S : Lanes) : RhoPiBefore S 0 (S, S[(1 : Fin 25)]) where
  moved _ hi := absurd hi (Nat.not_lt_zero _)
  kept _ _ := rfl
  carried i hi := by
    rw [Fin.ext hi (b := 0)]
    rfl

theorem rhoPiStep_lane (st : Lanes × Lane) (k : Fin 24) (j : Fin 25) :
    (rhoPiStep st k).1[j] = if piln[k] = j then rotl64 st.2 rotc[k] else st.1[j] := by
  simp [rhoPiStep, Vector.getElem_set, Fin.ext_iff]

/-- A step reads its destination before it writes it, and no earlier step has written it. -/
theorem RhoPiBefore.step {S : Lanes} {st : Lanes × Lane} {k : Fin 24} (h : RhoPiBefore S k.val st) :
    RhoPiBefore S (k.val + 1) (rhoPiStep st k) where
  moved i hi := by
    rw [rhoPiStep_lane]
    by_cases hik : i = k
    · rw [hik, if_pos rfl, h.carried k rfl]
    · rw [if_neg fun e => hik (piln_injective _ _ e).symm]
      exact h.moved i (by omega)
  kept j hj := by
    rw [rhoPiStep_lane, if_neg (hj k (by omega))]
    exact h.kept j fun i hi => hj i (by omega)
  carried i hi := by
    have hread : (rhoPiStep st k).2 = S[piln[k]] :=
      h.kept _ fun j hj e => absurd (congrArg Fin.val (piln_injective j k e)) (Nat.ne_of_lt hj)
    simp only [hread, rhoPiSource_succ i k hi]

theorem rhoPiBefore_end (S : Lanes) : RhoPiBefore S 24 ((List.finRange 24).foldl rhoPiStep (S, S[(1 : Fin 25)])) := by
  have hloop (k : Nat) (hk : k ≤ 24) :
      RhoPiBefore S k (((List.finRange 24).take k).foldl rhoPiStep (S, S[(1 : Fin 25)])) := by
    induction k with
    | zero => exact rhoPiBefore_start S
    | succ k ih =>
      rw [foldl_take_finRange _ _ hk]
      exact (ih (by omega)).step (k := ⟨k, hk⟩)
  exact hloop 24 (le_refl 24)

theorem rhoPi_piln (S : Lanes) (i : Fin 24) : (rhoPi S)[piln[i]] = rotl64 S[rhoPiSource i] rotc[i] :=
  (rhoPiBefore_end S).moved i i.isLt

theorem rhoPi_zero (S : Lanes) : (rhoPi S)[(0 : Fin 25)] = S[(0 : Fin 25)] :=
  (rhoPiBefore_end S).kept 0 fun i _ => piln_ne_zero i

theorem rhoPi_laneIdx (S : Lanes) (x y : Fin 5) :
    (rhoPi S)[laneIdx y (2 * x + 3 * y)] = rotl64 S[laneIdx x y] rhoOffset[laneIdx x y] := by
  rcases rhoPi_step_of_source x y with ⟨rfl, rfl⟩ | ⟨i, hsource, hdest, hrot⟩
  · exact rhoPi_zero S
  · simpa only [hsource, hdest, hrot] using rhoPi_piln S i

/-- Settles O7: the loop's invariant after its last step, and the table step by step. -/
theorem rhoPiMovesEachLane : Obligations.RhoPiMovesEachLane := by
  refine fun S => ⟨fun i => ?_, rhoPi_zero S, rhoPi_laneIdx S⟩
  rw [rhoPi_piln]
  by_cases h : i = 0
  · simp only [rhoPiSource, h, if_true]
  · simp only [rhoPiSource, h, if_false]

/-! χ and ι (rules R130, R131) -/

theorem chi_laneIdx (S : Lanes) (x y : Fin 5) : (chi S)[laneIdx x y] =
    S[laneIdx x y] ^^^ (~~~ S[laneIdx (x + 1) y] &&& S[laneIdx (x + 2) y]) := by
  simp only [chi_get, laneX_laneIdx, laneY_laneIdx]

/-- No bit is set both in a lane and in its complement. -/
theorem chi_replicate (v : Lane) : chi (Vector.replicate 25 v) = Vector.replicate 25 v := by
  refine lanes_ext fun i => ?_
  rw [← laneIdx_laneX_laneY i, chi_laneIdx]
  simp

/-- Settles O8: `chi_laneIdx`, and χ keeps every state of 25 equal lanes. -/
theorem chiMixesEachRow : Obligations.ChiMixesEachRow :=
  ⟨chi_laneIdx, chi_replicate _, chi_replicate _⟩

/-- Settles O9: `iota_get` at lane 0 and at another lane. -/
theorem iotaChangesLaneZeroOnly : Obligations.IotaChangesLaneZeroOnly :=
  fun S k => ⟨(iota_get S k 0).trans (if_pos rfl), fun i hi => (iota_get S k i).trans (if_neg hi)⟩

/-! The rounds in order (rules R132, R133) -/

/-- The state before round k. -/
def beforeRound (S : Lanes) (k : Nat) : Lanes := ((List.finRange 24).take k).foldl keccakRound S

theorem beforeRound_succ (S : Lanes) (k : Fin 24) : beforeRound S (k.val + 1) = keccakRound (beforeRound S k.val) k :=
  foldl_take_finRange keccakRound S k.isLt

theorem beforeRound_last (S : Lanes) : beforeRound S 24 = keccakF S := by
  rw [keccakF]
  rfl

/-- Settles O10: the states between the rounds, and the rules' examples evaluated. -/
theorem keccakFRunsTheRoundsInOrder : Obligations.KeccakFRunsTheRoundsInOrder := by
  have hzero : keccakRound zeroLanes 0 = zeroLanes.set 0 0x0000000000000001 ∧
      (keccakF zeroLanes)[0] = 0xF1258F7940E1DDE7 ∧ (keccakF zeroLanes)[1] = 0x84D5CCF933C0478A := by decide +kernel
  exact ⟨fun S => ⟨beforeRound S, rfl, beforeRound_succ S, (beforeRound_last S).symm⟩, fun _ _ => rfl, hzero⟩

/-! No step mapping drops a bit (rule R134) -/

/-- θ adds to each column parity C[x] the sum C[x−1] ^ rotl(C[x+1], 1). This is the map with the shifts n in place of 1. -/
def mixParities (n : Nat) (C : Fin 5 → Lane) (x : Fin 5) : Lane :=
  C x ^^^ (C (x - Fin.ofNat 5 n) ^^^ rotl64 (C (x + Fin.ofNat 5 n)) n)

theorem lane_xor_left_comm (u v w : Lane) : u ^^^ (v ^^^ w) = v ^^^ (u ^^^ w) := by ac_rfl

/-- Squaring the sum doubles its shifts: each mixed term occurs twice. -/
theorem mixParities_mixParities (n : Nat) (C : Fin 5 → Lane) : mixParities n (mixParities n C) = mixParities (n + n) C := by
  funext x
  have hadd : Fin.ofNat 5 (n + n) = Fin.ofNat 5 n + Fin.ofNat 5 n := by simp [Fin.ext_iff, Fin.val_add]
  have hcancel (a b c d e f : Lane) : a ^^^ (b ^^^ c) ^^^ (b ^^^ (d ^^^ e) ^^^ (c ^^^ (e ^^^ f))) = a ^^^ (d ^^^ f) := by
    simp only [BitVec.xor_assoc, lane_xor_left_comm, xor_cancel_left]
  simp only [mixParities, rotl64_xor, rotl64_rotl64, sub_add_cancel, add_sub_cancel_right, hadd, sub_sub, add_assoc, hcancel]

theorem mixParities_iterate_two_pow (k : Nat) : (mixParities 1)^[2 ^ k] = mixParities (2 ^ k) := by
  induction k with
  | zero => rfl
  | succ k ih =>
    rw [pow_succ, mul_two, Function.iterate_add, ih]
    exact funext (mixParities_mixParities (2 ^ k))

/-- With the shifts 64 and 128 the rotations are gone, and on five lanes each of the two maps undoes the other. -/
theorem mixParities_64_128 (C : Fin 5 → Lane) : mixParities 64 (mixParities 128 C) = C := by
  have h64 (E : Fin 5 → Lane) (x : Fin 5) : mixParities 64 E x = E x ^^^ (E (x + 1) ^^^ E (x + 4)) := by
    have hback : x - Fin.ofNat 5 64 = x + 1 := by decide +revert
    rw [mixParities, rotl64_of_mod_eq_zero _ rfl, hback]
    rfl
  have h128 (x : Fin 5) : mixParities 128 C x = C x ^^^ (C (x + 2) ^^^ C (x + 3)) := by
    have hback : x - Fin.ofNat 5 128 = x + 2 := by decide +revert
    rw [mixParities, rotl64_of_mod_eq_zero _ rfl, hback]
    rfl
  funext x
  simp only [h64, h128, add_assoc, Fin.reduceAdd]
  simp [BitVec.xor_assoc, lane_xor_left_comm]

/-- The 192nd iterate is the identity, so the 191st is an inverse. -/
theorem mixParities_injective : Function.Injective (mixParities 1) := by
  have hid : (mixParities 1)^[2 ^ 6 + 2 ^ 7] = id := by
    rw [Function.iterate_add, mixParities_iterate_two_pow, mixParities_iterate_two_pow]
    exact funext mixParities_64_128
  have hleft : Function.LeftInverse ((mixParities 1)^[191]) (mixParities 1) := congrFun hid
  exact hleft.injective

/-- Each of the five lanes of a column takes the same sum, so the column's parity takes it too. -/
theorem thetaC_theta (S : Lanes) : (thetaC (theta S)).get = mixParities 1 (thetaC S).get := by
  funext x
  have hcancel (a b c d e t : Lane) :
      (a ^^^ t) ^^^ (b ^^^ t) ^^^ (c ^^^ t) ^^^ (d ^^^ t) ^^^ (e ^^^ t) = (a ^^^ b ^^^ c ^^^ d ^^^ e) ^^^ t := by
    simp only [BitVec.xor_assoc, BitVec.xor_comm, lane_xor_left_comm, xor_cancel_left]
  change (thetaC (theta S))[x] = (thetaC S)[x] ^^^ ((thetaC S)[x - 1] ^^^ rotl64 (thetaC S)[x + 1] 1)
  rw [thetaC_get]
  simp only [theta_laneIdx, hcancel]
  rw [← thetaC_get]

theorem theta_injective : Function.Injective theta := by
  intro S T h
  have hC : (thetaC S).get = (thetaC T).get := mixParities_injective (by rw [← thetaC_theta, ← thetaC_theta, h])
  have hCx (x : Fin 5) : (thetaC S)[x] = (thetaC T)[x] := congrFun hC x
  refine lanes_ext fun i => ?_
  have hi : (theta S)[i] = (theta T)[i] := by rw [h]
  rw [theta_get, theta_get, thetaD_get, thetaD_get, hCx, hCx] at hi
  exact (BitVec.xor_left_inj _).mp hi

theorem rhoPi_injective : Function.Injective rhoPi := by
  intro S T h
  refine lanes_ext fun i => ?_
  rw [← laneIdx_laneX_laneY i]
  refine rotl64_injective rhoOffset[laneIdx (laneX i) (laneY i)] ?_
  change rotl64 _ _ = rotl64 _ _
  rw [← rhoPi_laneIdx, ← rhoPi_laneIdx, h]

/-- χ on one lane a and the two that follow it in the row. -/
def chiLane (a b c : Lane) : Lane := a ^^^ (~~~ b &&& c)

/-- A lane of a row from the five lanes that χ makes of the row. -/
theorem chiLane_inverse (v₀ v₁ v₂ v₃ v₄ : Lane) :
    chiLane (chiLane v₀ v₁ v₂) (chiLane v₁ v₂ v₃) (chiLane (chiLane v₂ v₃ v₄) (chiLane v₃ v₄ v₀)
      (chiLane (chiLane v₄ v₀ v₁) (chiLane v₀ v₁ v₂) (chiLane (chiLane v₁ v₂ v₃) (chiLane v₂ v₃ v₄) (chiLane v₃ v₄ v₀)))) =
    v₀ := by
  ext j hj
  simp only [chiLane, BitVec.getElem_xor, BitVec.getElem_and, BitVec.getElem_not]
  generalize v₀[j] = b₀, v₁[j] = b₁, v₂[j] = b₂, v₃[j] = b₃, v₄[j] = b₄
  revert b₀ b₁ b₂ b₃ b₄
  decide

theorem chi_inverse (S : Lanes) (x y : Fin 5) :
    chiLane (chi S)[laneIdx x y] (chi S)[laneIdx (x + 1) y]
      (chiLane (chi S)[laneIdx (x + 2) y] (chi S)[laneIdx (x + 3) y]
        (chiLane (chi S)[laneIdx (x + 4) y] (chi S)[laneIdx x y]
          (chiLane (chi S)[laneIdx (x + 1) y] (chi S)[laneIdx (x + 2) y] (chi S)[laneIdx (x + 3) y]))) =
    S[laneIdx x y] := by
  simp only [chi_laneIdx, add_assoc, Fin.reduceAdd, add_zero]
  exact chiLane_inverse _ _ _ _ _

theorem chi_injective : Function.Injective chi := by
  intro S T h
  refine lanes_ext fun i => ?_
  rw [← laneIdx_laneX_laneY i, ← chi_inverse S, ← chi_inverse T, h]

theorem iota_injective (k : Fin 24) : Function.Injective (iota · k) := by
  intro S T h
  refine lanes_ext fun i => ?_
  have hi : (iota S k)[i] = (iota T k)[i] := congrArg (fun U : Lanes => U[i]) h
  rw [iota_get, iota_get] at hi
  by_cases h0 : i = 0
  · rw [if_pos h0, if_pos h0] at hi
    rw [h0]
    exact (BitVec.xor_left_inj _).mp hi
  · rwa [if_neg h0, if_neg h0] at hi

theorem keccakRound_injective (k : Fin 24) : Function.Injective (keccakRound · k) :=
  (iota_injective k).comp (chi_injective.comp (rhoPi_injective.comp theta_injective))

/-- Settles O11: no round maps two states to one, so by induction over the rounds Keccak-f does not. -/
theorem keccakFIsInjective : Obligations.KeccakFIsInjective := by
  have hrounds (ks : List (Fin 24)) : Function.Injective (ks.foldl keccakRound) := by
    induction ks with
    | nil => exact fun _ _ h => h
    | cons k ks ih => exact ih.comp (keccakRound_injective k)
  intro S T h
  rw [keccakF, keccakF] at h
  exact hrounds _ h

end Sys2Proof.Machine
end

section
/-! The sponge (statements O15 to O21). Byte order is read off byte by byte; the absorb loop is a fold over the whole blocks;
the squeeze reads a stream of bytes that does not depend on how many are asked for. -/

namespace Sys2Proof.Machine

/-! LE64 and LEBYTES (rules R161, R162) -/

/-- Bytes put together into a value that has room for them are its first bytes. -/
theorem toLE_fromLE {w n : Nat} {b : List Byte} (hb : b.length = n) (hw : 8 * n ≤ w) : toLE n (fromLE w b) = b := by
  refine List.ext_getElem ((toLE_length _ _).trans hb.symm) fun k _ hk => ?_
  rw [List.getElem_eq_iff, toLE_getElem? _ (hb ▸ hk), fromLE_byte b (by omega), List.getD_eq_getElem b 0 hk]

theorem le64_eight (b0 b1 b2 b3 b4 b5 b6 b7 : Byte) : le64 [b0, b1, b2, b3, b4, b5, b6, b7] =
    b0.setWidth 64 ||| (b1.setWidth 64 <<< 8) ||| (b2.setWidth 64 <<< 16) ||| (b3.setWidth 64 <<< 24) |||
      (b4.setWidth 64 <<< 32) ||| (b5.setWidth 64 <<< 40) ||| (b6.setWidth 64 <<< 48) ||| (b7.setWidth 64 <<< 56) := by
  simp only [le64, fromLE, BitVec.shiftLeft_or_distrib, ← BitVec.shiftLeft_add, ← BitVec.or_assoc, Nat.reduceAdd,
    BitVec.ofNat_eq_ofNat, BitVec.zero_shiftLeft, BitVec.or_zero]

/-- Settles O15: `le64_eight`, and both orders of assembling bytes and taking them apart. -/
theorem laneBytesRoundTrip : Obligations.LaneBytesRoundTrip :=
  ⟨le64_eight, fun _ => rfl, fromLE_toLE rfl, fun _ hb => toLE_fromLE hb (le_refl _)⟩

/-! Absorb (rules R165, R166, R169) -/

theorem blockWord_eq_map {B : List Byte} {i : Nat} (h : 8 * i + 8 ≤ B.length) :
    blockWord B i = (List.range 8).map fun k => B.getD (8 * i + k) 0 := by
  refine List.ext_getElem (by simp [blockWord_length h]) fun k hk _ => ?_
  rw [blockWord_length h] at hk
  have hin : 8 * i + k < B.length := by omega
  simp only [blockWord, List.getElem_take, List.getElem_drop, List.getElem_map, List.getElem_range,
    List.getD_eq_getElem B 0 hin]

/-- Settles O16: one lane of the block, below and from r/8 on. -/
theorem absorbXorsTheRateLanesOnly : Obligations.AbsorbXorsTheRateLanesOnly := by
  refine fun r S B i hB => ⟨fun hi => ?_, fun hi => ?_⟩
  · rw [absorbBlock_get, if_pos hi, blockWord_eq_map (by omega)]
  · rw [absorbBlock_get, if_neg (by omega)]

/-- The lanes after the first q blocks of M, from the lanes S on: the fold that statement O17 writes out. -/
def absorbBlocks (r q : Nat) (S : Lanes) (M : List Byte) : Lanes :=
  (List.range q).foldl (fun T k => keccakF (absorbBlock r T ((M.drop (k * r)).take r))) S

theorem absorbBlocks_succ (r q : Nat) (S : Lanes) (M : List Byte) :
    absorbBlocks r (q + 1) S M = absorbBlocks r q (keccakF (absorbBlock r S (M.take r))) (M.drop r) := by
  have hnext (k : Nat) : r + k * r = (k + 1) * r := by rw [Nat.succ_mul, Nat.add_comm]
  simp only [absorbBlocks, List.range_succ_eq_map, List.foldl_cons, List.foldl_map, Nat.zero_mul, List.drop_zero,
    List.drop_drop, hnext, Nat.succ_eq_add_one]

/-- The absorb loop runs floor(L / r) times (rule R166). -/
theorem absorbLoop_eq {r : Nat} (hr : 0 < r) {fuel : Nat} {M : List Byte} (hfuel : M.length ≤ fuel) (S : Lanes) :
    absorbLoop r fuel S M = (absorbBlocks r (M.length / r) S M, M.drop (M.length / r * r)) := by
  induction fuel generalizing S M with
  | zero =>
    rw [List.length_eq_zero_iff.mp (Nat.le_zero.mp hfuel), List.length_nil, Nat.zero_div, Nat.zero_mul]
    rfl
  | succ fuel ih =>
    by_cases h : r ≤ M.length
    · have hrest : (M.drop r).length = M.length - r := List.length_drop
      rw [absorbLoop_turn h, ih (by omega), hrest, Nat.div_eq_sub_div hr h, absorbBlocks_succ, List.drop_drop,
        Nat.succ_mul, Nat.add_comm r]
    · rw [absorbLoop_end (by omega), Nat.div_eq_of_lt (by omega), Nat.zero_mul, List.drop_zero]
      rfl

/-- Settles O17: the absorb loop from the zero state, with the message's length as its bound. -/
theorem absorbTakesWholeBlocksThenThePad : Obligations.AbsorbTakesWholeBlocksThenThePad := by
  refine fun r suffix M hr => ⟨?_, ?_⟩
  · rw [List.length_drop, Nat.mul_comm, Nat.mod_eq_sub_mul_div]
  · rw [absorbAll, absorbLoop_eq hr (le_refl _)]
    rfl

/-! Pad (rules R167, R168, R174) -/

/-- Byte k of the tail followed by the zeros of the fill. -/
theorem append_zeros_getElem? {r k : Nat} {tail : List Byte} (hk : k < r) :
    (tail ++ List.replicate (r - tail.length) 0)[k]? = some (tail.getD k 0) := by
  by_cases h : k < tail.length
  · rw [List.getElem?_append_left h, List.getD_eq_getElem tail 0 h, List.getElem?_eq_getElem h]
  · rw [List.getElem?_append_right (by omega), List.getElem?_replicate, if_pos (by omega),
      List.getD_eq_default tail 0 (by omega)]

/-- A mark OR-ed into the byte at i leaves the other bytes as they are. -/
theorem getElem?_modify_or (l : List Byte) (i : Nat) (m : Byte) (k : Nat) :
    (l.modify i (· ||| m))[k]? = l[k]?.map (· ||| if k = i then m else 0) := by
  by_cases h : k = i
  · simp [h]
  · simp [h, Ne.symm h]

theorem padBlock_getElem? {r k : Nat} {tail : List Byte} (hk : k < r) (suffix : Byte) :
    (padBlock r suffix tail)[k]? = some
      (tail.getD k 0 ||| (if k = tail.length then suffix else 0) ||| (if k = r - 1 then 0x80 else 0)) := by
  rw [padBlock, getElem?_modify_or, getElem?_modify_or, append_zeros_getElem? hk]
  rfl

/-- Settles O18: `padBlock_getElem?`; the tail leaves room for the marks. -/
theorem paddedBlockBytes : Obligations.PaddedBlockBytes :=
  fun _ suffix _ h => ⟨padBlock_length (Nat.le_of_lt h) suffix, fun _ hk => padBlock_getElem? hk suffix⟩

/-- Both marks are OR-ed in beyond the tail, so the tail stands in the padded block as it is. -/
theorem take_padBlock {r : Nat} {tail : List Byte} (h : tail.length < r) (suffix : Byte) :
    (padBlock r suffix tail).take tail.length = tail := by
  refine List.ext_getElem? fun k => ?_
  by_cases hk : k < tail.length
  · rw [List.getElem?_take_of_lt hk, padBlock_getElem? (by omega), if_neg (by omega), if_neg (by omega),
      List.getD_eq_getElem tail 0 hk, List.getElem?_eq_getElem hk]
    simp
  · rw [List.getElem?_take_eq_none (by omega), List.getElem?_eq_none (by omega)]

/-- Settles O19: the tail is read back from the padded block. -/
theorem paddingIsInjective : Obligations.PaddingIsInjective := by
  intro r suffix t u ht hlen hpad
  calc t = (padBlock r suffix t).take t.length := (take_padBlock ht suffix).symm
    _ = (padBlock r suffix u).take u.length := by rw [hpad, hlen]
    _ = u := take_padBlock (hlen ▸ ht) suffix

/-! Squeeze (rules R170, R171, R173) -/

/-- Byte k of the squeeze sequence from the lanes S: byte k mod r of the rate lanes after k / r permutations. -/
def squeezeByte (r : Nat) (S : Lanes) (k : Nat) : Byte :=
  laneByte ((keccakIter (k / r) S).toList.getD (k % r / 8) 0) (k % r % 8)

/-- The first block comes from S itself. -/
theorem squeezeByte_of_lt {r k : Nat} (hk : k < r) (S : Lanes) :
    squeezeByte r S k = laneByte (S.toList.getD (k / 8) 0) (k % 8) := by
  rw [squeezeByte, Nat.div_eq_of_lt hk, Nat.mod_eq_of_lt hk, keccakIter]

/-- The blocks after the first are those of the permuted lanes. -/
theorem squeezeByte_add {r : Nat} (hr : 0 < r) (S : Lanes) (k : Nat) :
    squeezeByte r S (r + k) = squeezeByte r (keccakF S) k := by
  rw [squeezeByte, Nat.add_div_left k hr, Nat.add_mod_left, keccakIter, squeezeByte]

theorem map_range_add {α : Type} (f : Nat → α) (m n : Nat) :
    (List.range (m + n)).map f = (List.range m).map f ++ (List.range n).map fun k => f (m + k) := by
  rw [List.range_add, List.map_append, List.map_map]
  rfl

/-- Lanes as bytes, in lane order and little-endian (rule R162). -/
theorem flatMap_leBytes (l : List Lane) :
    l.flatMap leBytes = (List.range (8 * l.length)).map fun k => laneByte (l.getD (k / 8) 0) (k % 8) := by
  induction l with
  | nil => rfl
  | cons v l ih =>
    rw [List.flatMap_cons, ih, List.length_cons, Nat.mul_succ, Nat.add_comm, map_range_add]
    congr 1
    refine List.map_congr_left fun k _ => ?_
    rw [Nat.add_div_left k (by decide), Nat.add_mod_left, List.getD_cons_succ]

section

variable {r : Nat} (hr : 0 < r) (hlanes : min (r / 8) 25 * 8 = r)

include hlanes in
/-- A block is the first r bytes of the sequence: rate lanes only (rule R170). -/
theorem emitBlock_eq (S : Lanes) : emitBlock r S = (List.range r).map (squeezeByte r S) := by
  have hlen : 8 * (S.toList.take (r / 8)).length = r := by
    rw [List.length_take, Vector.length_toList, Nat.mul_comm, hlanes]
  rw [emitBlock, flatMap_leBytes, hlen]
  refine List.map_congr_left fun k hk => ?_
  have hkr : k < r := List.mem_range.mp hk
  have hlane : k / 8 < r / 8 := by omega
  rw [squeezeByte_of_lt hkr, List.getD_eq_getElem?_getD, List.getElem?_take_of_lt hlane, List.getD_eq_getElem?_getD]

include hr hlanes

/-- The squeeze loop adds to Z the bytes that are still missing, and the block it cuts (rule R170). -/
theorem take_squeezeLoop {n fuel : Nat} {Z : List Byte} (hZ : Z.length ≤ n) (hfuel : n - Z.length ≤ fuel) (S : Lanes) :
    (squeezeLoop r n fuel S Z).take n = Z ++ (List.range (n - Z.length)).map (squeezeByte r S) := by
  induction fuel generalizing S Z with
  | zero =>
    rw [squeezeLoop, List.take_of_length_le (by omega), Nat.le_zero.mp hfuel, List.range_zero, List.map_nil, List.append_nil]
  | succ fuel ih =>
    have hlen : (Z ++ emitBlock r S).length = Z.length + r := by rw [List.length_append, emitBlock_length, hlanes]
    by_cases h : n ≤ (Z ++ emitBlock r S).length
    · rw [squeezeLoop, if_pos h, List.take_append, List.take_of_length_le hZ, emitBlock_eq hlanes, ← List.map_take,
        List.take_range, Nat.min_eq_left (by omega)]
    · have hsplit : n - Z.length = r + (n - (Z.length + r)) := by omega
      rw [squeezeLoop, if_neg h, ih (by omega) (by omega), hlen, hsplit, map_range_add, emitBlock_eq hlanes, List.append_assoc]
      simp only [squeezeByte_add hr]

theorem squeeze_eq (n : Nat) (S : Lanes) : squeeze r n S = (List.range n).map (squeezeByte r S) :=
  take_squeezeLoop hr hlanes (Nat.zero_le n) (le_refl n) S

end

/-- For a capacity of rule R160's table, the sponge is an initial part of a sequence that does not depend on d. -/
theorem sponge_eq {capacity : Nat} (hc : capacity ∈ [256, 448, 512, 768, 1024]) (M : List Byte) (outBits : Nat)
    (suffix : Byte) : sponge M capacity outBits suffix =
      (List.range (outBits / 8)).map (squeezeByte (rateOf capacity) (absorbAll (rateOf capacity) suffix M)) := by
  obtain ⟨hr, hlanes⟩ := rateOf_wholeLanes capacity hc
  exact squeeze_eq hr hlanes _ _

/-- Settles O20: the length and byte k of that sequence's initial part. -/
theorem spongeOutputBytes : Obligations.SpongeOutputBytes := by
  intro M capacity outBits suffix hc
  rw [sponge_eq hc]
  refine ⟨by rw [List.length_map, List.length_range], fun k hk => ?_⟩
  rw [List.getElem?_map, List.getElem?_range hk]
  rfl

/-- Settles O21: two initial parts of one sequence. -/
theorem shorterOutputIsAPrefix : Obligations.ShorterOutputIsAPrefix := by
  intro M capacity d1 d2 suffix hc hd
  rw [sponge_eq hc, sponge_eq hc, ← List.map_take, List.take_range, Nat.min_eq_left (Nat.div_le_div_right hd)]

end Sys2Proof.Machine
end

section
/-! The commands (statements O23 to O36, O38 and O56). The checks of HASH and SHAKE are said once with the terms of the
statements, and so are the ends of a command: an error is a completion and nothing else, and the successful end of HASH and
SHAKE is that of the checked call that `SpongeCommand` names. -/

namespace Sys2Proof.Machine

/-! The checks (rules R206, R207, R211, R212, R273) -/

theorem mdLenLegal_iff (size : Word) : mdLenLegal size = true ↔ size.toNat ∈ [224, 256, 384, 512] := by
  simp [mdLenLegal, or_assoc]

theorem securityLevelLegal_iff (size : Word) : securityLevelLegal size = true ↔ size.toNat ∈ [128, 256] := by
  simp [securityLevelLegal]

theorem outLenLegal_iff (outLen : Word) : outLenLegal outLen = true ↔ outLen.toNat ≠ 0 ∧ outLen.toNat % 8 = 0 := by
  simp [outLenLegal]

theorem hashOperands_illegalSize {s : State} (h : s.size.toNat ∉ [224, 256, 384, 512]) (raw : Bool) :
    hashOperands raw s = .error .unsupportedMdLen :=
  if_neg ((mdLenLegal_iff s.size).not.mpr h)

theorem outBytes_le (p : SpongeCall) : p.outBytes ≤ 2 * p.digestBytes := by
  rw [SpongeCall.outBytes]
  split <;> omega

/-- The longest digest, 512 bits in hexadecimal, fits the smallest OBUF (rule R8), so HASH checks IN_LEN only. -/
theorem hashOperands_legalSize {s : State} (hc : s.cfg.legal = true) (h : s.size.toNat ∈ [224, 256, 384, 512]) (raw : Bool) :
    hashOperands raw s =
      if s.cfg.ibufBytes < s.inLen.toNat then .error .inLenTooLarge else .ok (hashCall raw s) := by
  obtain ⟨_, _, hobuf, _⟩ := (legal_iff s.cfg).mp hc
  have hle : s.size.toNat ≤ 512 := (by decide : ∀ n ∈ [224, 256, 384, 512], n ≤ 512) _ h
  have hout : (hashCall raw s).outBytes ≤ 2 * (s.size.toNat / 8) := outBytes_le (hashCall raw s)
  have hfit : (hashCall raw s).outBytes ≤ s.cfg.obufBytes := by omega
  rw [hashOperands, if_pos ((mdLenLegal_iff s.size).mpr h), bufferChecks, if_neg (Nat.not_lt.mpr hfit)]

/-- HASH's errors are 1 and 4. -/
theorem hashOperands_errorCode {raw : Bool} {s : State} {e : ErrCode} (hc : s.cfg.legal = true)
    (h : hashOperands raw s = .error e) : e = .unsupportedMdLen ∨ e = .inLenTooLarge := by
  by_cases hsize : s.size.toNat ∈ [224, 256, 384, 512]
  · rw [hashOperands_legalSize hc hsize] at h
    split at h
    · exact .inr (Except.error.inj h).symm
    · cases h
  · rw [hashOperands_illegalSize hsize] at h
    exact .inl (Except.error.inj h).symm

theorem shakeOperands_illegalSize {s : State} (h : s.size.toNat ∉ [128, 256]) (raw : Bool) :
    shakeOperands raw s = .error .unsupportedSecurityLevel :=
  if_neg ((securityLevelLegal_iff s.size).not.mpr h)

theorem shakeOperands_illegalOutLen {s : State} (h : s.size.toNat ∈ [128, 256])
    (ho : ¬ (s.outLen.toNat ≠ 0 ∧ s.outLen.toNat % 8 = 0)) (raw : Bool) :
    shakeOperands raw s = .error .badOutLen := by
  rw [shakeOperands, if_pos ((securityLevelLegal_iff s.size).mpr h), if_neg ((outLenLegal_iff s.outLen).not.mpr ho)]

theorem shakeOperands_legal {s : State} (h : s.size.toNat ∈ [128, 256]) (ho : s.outLen.toNat ≠ 0)
    (ho8 : s.outLen.toNat % 8 = 0) (raw : Bool) : shakeOperands raw s = bufferChecks (shakeCall raw s) s := by
  rw [shakeOperands, if_pos ((securityLevelLegal_iff s.size).mpr h), if_pos ((outLenLegal_iff s.outLen).mpr ⟨ho, ho8⟩)]

theorem bufferChecks_longMessage {s : State} (h : s.cfg.ibufBytes < s.inLen.toNat) (p : SpongeCall) :
    bufferChecks p s = .error .inLenTooLarge := if_pos h

theorem bufferChecks_longOutput {p : SpongeCall} {s : State} (hi : s.inLen.toNat ≤ s.cfg.ibufBytes)
    (ho : s.cfg.obufBytes < p.outBytes) : bufferChecks p s = .error .outTooLarge := by
  rw [bufferChecks, if_neg (Nat.not_lt.mpr hi), if_pos ho]

theorem bufferChecks_fits {p : SpongeCall} {s : State} (hi : s.inLen.toNat ≤ s.cfg.ibufBytes)
    (ho : p.outBytes ≤ s.cfg.obufBytes) : bufferChecks p s = .ok p := by
  rw [bufferChecks, if_neg (Nat.not_lt.mpr hi), if_neg (Nat.not_lt.mpr ho)]

/-! The two ends of a HASH or SHAKE (rules R201, R203) -/

/-- Taking an error writes STATUS and OUT_COUNT only. -/
theorem complete_error {e : ErrCode} (he : e ≠ .ok) (s : State) :
    complete e s = { s with seq := .idle, done := true, err := e, outCount := 0 } := by
  rw [complete, if_neg he]

theorem runSponge_error {e : ErrCode} (he : e ≠ .ok) (s : State) :
    runSponge (.error e) s = .next { s with seq := .idle, done := true, err := e, outCount := 0 } :=
  congrArg Host.Outcome.next (complete_error he s)

/-- Settles O23: the checks pass, and the rest is the effect of the call. -/
theorem hashResult : Obligations.HashResult := by
  intro raw s hc hsize hin
  rw [exec_hash, hashOperands_legalSize hc hsize, if_neg (Nat.not_lt.mpr hin)]
  rfl

/-- Settles O24: the two checks that can fail, and no end of HASH has another code. -/
theorem hashErrors : Obligations.HashErrors := by
  intro raw s hc
  refine ⟨fun hsize => ?_, fun hsize hin => ?_, fun t ht => ?_⟩
  · rw [exec_hash, hashOperands_illegalSize hsize, runSponge_error (by decide)]
  · rw [exec_hash, hashOperands_legalSize hc hsize, if_pos hin, runSponge_error (by decide)]
  · rcases runSponge_next ht with ⟨e, he, rfl⟩ | ⟨p, _, rfl⟩
    · exact .inr (hashOperands_errorCode hc he)
    · exact .inl rfl

/-- Settles O25: the checks pass, and the rest is the effect of the call. -/
theorem shakeResult : Obligations.ShakeResult := by
  intro raw s hsize ho ho8 hin nd nout hfit
  rw [exec_shake, shakeOperands_legal hsize ho ho8, bufferChecks_fits (p := shakeCall raw s) hin hfit]
  rfl

/-- Settles O26: one check after the other. -/
theorem shakeErrors : Obligations.ShakeErrors := by
  intro raw s
  refine ⟨fun hsize => ?_, fun hsize ho => ?_, fun hsize ho ho8 hin => ?_, fun hsize ho ho8 hin hfit => ?_⟩
  · rw [exec_shake, shakeOperands_illegalSize hsize, runSponge_error (by decide)]
  · rw [exec_shake, shakeOperands_illegalOutLen hsize (by omega), runSponge_error (by decide)]
  · rw [exec_shake, shakeOperands_legal hsize ho ho8, bufferChecks_longMessage hin, runSponge_error (by decide)]
  · rw [exec_shake, shakeOperands_legal hsize ho ho8, bufferChecks_longOutput (p := shakeCall raw s) hin hfit,
      runSponge_error (by decide)]

/-! The ends of every command -/

/-- Every command ends in a completion, after effects on the lanes, the buffers, OUT_COUNT and the draw count. -/
theorem exec_end {i : Instr} {s t : State} (h : exec i s = .next t) :
    ∃ e L m n d, t = complete e { s with lanes := L, mem := m, outCount := n, draws := d } := by
  rcases exec_next h with ⟨_, _, _, _, rfl⟩ | ⟨_, _, _, _, rfl⟩ | ⟨_, _, _, _, rfl⟩ | ⟨_, _, _, _, rfl⟩ |
    ⟨_, _, rfl⟩ | ⟨_, _, rfl⟩ <;> exact ⟨_, _, _, _, _, rfl⟩

/-- A command that fails has no effect before its completion. -/
theorem exec_failed {i : Instr} {s t : State} (h : exec i s = .next t) (he : t.err ≠ .ok) : t = complete t.err s := by
  rcases exec_next h with ⟨_, _, _, _, rfl⟩ | ⟨_, _, _, _, rfl⟩ | ⟨_, _, _, _, rfl⟩ | ⟨_, _, _, _, rfl⟩ |
    ⟨_, _, rfl⟩ | ⟨_, _, rfl⟩
  · rfl
  · exact absurd rfl he
  · rfl
  · exact absurd rfl he
  · exact absurd rfl he
  · exact absurd rfl he

/-- Settles O27: the state that a failed command answers is its completion on the old one. -/
theorem errorChangesOnlyStatusAndCount : Obligations.ErrorChangesOnlyStatusAndCount :=
  fun _ s _ h he => (exec_failed h he).trans (complete_error he s)

/-- Settles O35: no command faults, and each end is a completion. -/
theorem everyCommandCompletes : Obligations.EveryCommandCompletes := by
  intro i s
  obtain ⟨t, ht, _⟩ := exec_goesOn i s
  obtain ⟨e, L, m, n, d, rfl⟩ := exec_end ht
  exact ⟨_, ht, rfl, rfl, fun he => complete_outCount_error he _⟩

/-! What a successful HASH or SHAKE leaves -/

/-- The instruction i, HASH or SHAKE, with its RAW bit and the call that its operands in s make. -/
def SpongeCommand (i : Instr) (raw : Bool) (p : SpongeCall) (s : State) : Prop :=
  (i = .hash raw ∧ p = hashCall raw s) ∨ (i = .shake raw ∧ p = shakeCall raw s)

/-- The checks that the command makes have passed. -/
def CheckedCall (raw : Bool) (p : SpongeCall) (s : State) : Prop :=
  hashOperands raw s = .ok p ∨ shakeOperands raw s = .ok p

theorem SpongeCommand.raw_eq {i : Instr} {raw : Bool} {p : SpongeCall} {s : State} (h : SpongeCommand i raw p s) :
    p.raw = raw := by
  rcases h with ⟨_, rfl⟩ | ⟨_, rfl⟩ <;> rfl

theorem exists_spongeCommand {i : Instr} {raw : Bool} (h : i = .hash raw ∨ i = .shake raw) (s : State) :
    ∃ p, SpongeCommand i raw p s := by
  rcases h with h | h
  · exact ⟨_, .inl ⟨h, rfl⟩⟩
  · exact ⟨_, .inr ⟨h, rfl⟩⟩

/-- A HASH or SHAKE that succeeds has passed its checks and ends with the effect of its call. -/
theorem SpongeCommand.exec_ok {i : Instr} {raw : Bool} {p : SpongeCall} {s t : State} (h : SpongeCommand i raw p s)
    (ht : exec i s = .next t) (he : t.err = .ok) : CheckedCall raw p s ∧ t = complete .ok (spongeEffect p s) := by
  rcases h with ⟨rfl, rfl⟩ | ⟨rfl, rfl⟩
  · rcases runSponge_next ht with ⟨e, hop, rfl⟩ | ⟨q, hop, rfl⟩
    · exact absurd he (hashOperands_error hop)
    · obtain ⟨rfl, _⟩ := hashOperands_ok hop
      exact ⟨.inl hop, rfl⟩
  · rcases runSponge_next ht with ⟨e, hop, rfl⟩ | ⟨q, hop, rfl⟩
    · exact absurd he (shakeOperands_error hop)
    · obtain ⟨rfl, _⟩ := shakeOperands_ok hop
      exact ⟨.inr hop, rfl⟩

section

variable {raw : Bool} {p : SpongeCall} {s : State} (h : CheckedCall raw p s)

include h

theorem CheckedCall.outBytes_le : p.outBytes ≤ s.cfg.obufBytes := by
  rcases h with h | h
  · obtain ⟨_, _, _, hfit⟩ := hashOperands_ok h
    exact hfit
  · obtain ⟨_, _, _, _, hfit⟩ := shakeOperands_ok h
    exact hfit

/-- A legal d is a whole number of bytes (rules R206, R212). -/
theorem CheckedCall.outBits_mod : p.outBits % 8 = 0 := by
  rcases h with h | h
  · obtain ⟨rfl, hsize, _⟩ := hashOperands_ok h
    exact (by decide : ∀ n ∈ [224, 256, 384, 512], n % 8 = 0) _ ((mdLenLegal_iff s.size).mp hsize)
  · obtain ⟨rfl, _, ho, _⟩ := shakeOperands_ok h
    obtain ⟨_, ho8⟩ := (outLenLegal_iff s.outLen).mp ho
    exact ho8

theorem CheckedCall.digest_length : (digest p s).length = p.digestBytes := by
  obtain ⟨hcap, _⟩ := checkedCall_capacity h
  obtain ⟨hlen, _⟩ := spongeOutputBytes (readMessage s).1 p.capacity p.outBits p.suffix hcap
  exact hlen

theorem CheckedCall.outputForm_length : (outputForm p.raw (digest p s)).length = p.outBytes := by
  rw [Machine.outputForm_length, h.digest_length, SpongeCall.outBytes]

/-- OUT_COUNT holds nout without wrapping. -/
theorem CheckedCall.outCount_toNat (hc : s.cfg.legal = true) : (spongeEffect p s).outCount.toNat = p.outBytes := by
  obtain ⟨_, _, _, hobuf⟩ := (legal_iff s.cfg).mp hc
  have hfit := h.outBytes_le
  rw [spongeEffect_outCount, BitVec.toNat_ofNat, Nat.mod_eq_of_lt (by omega)]

theorem CheckedCall.get?_output {k : Nat} (hk : k < p.outBytes) :
    (spongeEffect p s).mem.get? (0x8000 + k) = (outputForm p.raw (digest p s))[k]? := by
  rw [spongeEffect_mem, Memory.get?_writeBytes, h.outputForm_length, obufBase, if_pos (by omega), Nat.add_sub_cancel_left]

theorem CheckedCall.get?_outside {a : Nat} (ha : a < 0x8000 ∨ 0x8000 + p.outBytes ≤ a) :
    (spongeEffect p s).mem.get? a = s.mem.get? a := by
  rw [spongeEffect_mem, Memory.get?_writeBytes, h.outputForm_length, obufBase, if_neg (by omega)]

end

/-- Characters 2k and 2k + 1 are those of byte k, the high nibble first (rule R209). -/
theorem flatMap_hexByte_getElem? (D : List Byte) {k : Nat} (hk : k < D.length) :
    (D.flatMap hexByte)[2 * k]? = some (hexChar (D[k].extractLsb' 4 4)) ∧
    (D.flatMap hexByte)[2 * k + 1]? = some (hexChar (D[k].extractLsb' 0 4)) := by
  induction D generalizing k with
  | nil => exact absurd hk (Nat.not_lt_zero k)
  | cons b D ih =>
    cases k with
    | zero => exact ⟨rfl, rfl⟩
    | succ k => exact ih (Nat.lt_of_succ_lt_succ hk)

section

variable {raw : Bool} {p : SpongeCall} {s : State} (h : CheckedCall raw p s) (hc : s.cfg.legal = true)

include h hc

/-- In raw mode OBUF holds the digest (rule R209). -/
theorem CheckedCall.output_raw (hr : p.raw = true) : (spongeEffect p s).outCount.toNat = (digest p s).length ∧
    ∀ k, k < (digest p s).length → (spongeEffect p s).mem.get? (0x8000 + k) = (digest p s)[k]? := by
  have hout : p.outBytes = (digest p s).length := by rw [SpongeCall.outBytes, if_pos hr, h.digest_length]
  refine ⟨(h.outCount_toNat hc).trans hout, fun k hk => ?_⟩
  rw [h.get?_output (by omega), outputForm, if_pos hr]

/-- In hex mode OBUF holds the digest's hexadecimal characters (rules R209, R213). -/
theorem CheckedCall.output_hex (hr : p.raw = false) : (spongeEffect p s).outCount.toNat = 2 * (digest p s).length ∧
    ∀ k (hk : k < (digest p s).length),
      (spongeEffect p s).mem.get? (0x8000 + 2 * k) = some (hexChar ((digest p s)[k].extractLsb' 4 4)) ∧
      (spongeEffect p s).mem.get? (0x8000 + 2 * k + 1) = some (hexChar ((digest p s)[k].extractLsb' 0 4)) := by
  have hr' : ¬ p.raw = true := Bool.eq_false_iff.mp hr
  have hout : p.outBytes = 2 * (digest p s).length := by rw [SpongeCall.outBytes, if_neg hr', h.digest_length]
  refine ⟨(h.outCount_toNat hc).trans hout, fun k hk => ?_⟩
  rw [Nat.add_assoc, h.get?_output (by omega), h.get?_output (by omega), outputForm, if_neg hr']
  exact flatMap_hexByte_getElem? _ hk

end

/-- Settles O28: OBUF in the form RAW selects, the bytes above it, and HEXCHAR evaluated. -/
theorem outputFormInObuf : Obligations.OutputFormInObuf := by
  refine ⟨fun i raw p s t hc hi ht he => ?_, by decide⟩
  have hcmd : SpongeCommand i raw p s := hi
  have hraw := hcmd.raw_eq
  obtain ⟨hcall, rfl⟩ := hcmd.exec_ok ht he
  refine ⟨fun hr => hcall.output_raw hc (hraw.trans hr), fun hr => hcall.output_hex hc (hraw.trans hr), fun k hk => ?_⟩
  have hcount := hcall.outCount_toNat hc
  rw [complete_outCount_ok, hcount] at hk
  exact hcall.get?_outside (.inr (Nat.add_le_add_left hk _))

/-- Two calls in the two forms over one digest (rule R217). -/
theorem CheckedCall.hex_encodes_raw {s : State} {p q : SpongeCall} (hc : s.cfg.legal = true) (hp : CheckedCall true p s)
    (hq : CheckedCall false q s) (hpr : p.raw = true) (hqr : q.raw = false) (hdigest : digest q s = digest p s) :
    (spongeEffect q s).outCount.toNat = 2 * (spongeEffect p s).outCount.toNat ∧
    ∀ k, k < (spongeEffect p s).outCount.toNat → ∃ b, (spongeEffect p s).mem.get? (0x8000 + k) = some b ∧
      (spongeEffect q s).mem.get? (0x8000 + 2 * k) = some (hexChar (b.extractLsb' 4 4)) ∧
      (spongeEffect q s).mem.get? (0x8000 + 2 * k + 1) = some (hexChar (b.extractLsb' 0 4)) := by
  obtain ⟨hcount, hbytes⟩ := hp.output_raw hc hpr
  have hhex := hq.output_hex hc hqr
  rw [hdigest] at hhex
  obtain ⟨hcount2, hchars⟩ := hhex
  rw [hcount, hcount2]
  exact ⟨rfl, fun k hk => ⟨(digest p s)[k], (hbytes k hk).trans (List.getElem?_eq_getElem hk), hchars k hk⟩⟩

/-- Settles O29: the two forms show one digest, since the call's other parameters do not depend on RAW. -/
theorem hexOutputEncodesRawOutput : Obligations.HexOutputEncodesRawOutput := by
  intro s t u hc hexec het heu
  rcases hexec with ⟨ht, hu⟩ | ⟨ht, hu⟩
  · obtain ⟨hp, rfl⟩ := SpongeCommand.exec_ok (.inl ⟨rfl, rfl⟩) ht het
    obtain ⟨hq, rfl⟩ := SpongeCommand.exec_ok (.inl ⟨rfl, rfl⟩) hu heu
    exact hp.hex_encodes_raw hc hq rfl rfl rfl
  · obtain ⟨hp, rfl⟩ := SpongeCommand.exec_ok (.inr ⟨rfl, rfl⟩) ht het
    obtain ⟨hq, rfl⟩ := SpongeCommand.exec_ok (.inr ⟨rfl, rfl⟩) hu heu
    exact hp.hex_encodes_raw hc hq rfl rfl rfl

/-- OUT_COUNT after success is nout (rule R204). -/
theorem SpongeCommand.exec_outCount {i : Instr} {raw : Bool} {p : SpongeCall} {s t : State} (h : SpongeCommand i raw p s)
    (hc : s.cfg.legal = true) (ht : exec i s = .next t) (he : t.err = .ok) :
    t.outCount.toNat = p.outBytes ∧ p.outBits % 8 = 0 := by
  obtain ⟨hcall, rfl⟩ := h.exec_ok ht he
  exact ⟨hcall.outCount_toNat hc, hcall.outBits_mod⟩

theorem outBytes_hex {p : SpongeCall} (h : p.outBits % 8 = 0) (hr : p.raw = false) : p.outBytes = p.outBits / 4 := by
  simp only [SpongeCall.outBytes, SpongeCall.digestBytes, hr, Bool.false_eq_true, if_false]
  omega

theorem outBytes_raw {p : SpongeCall} (h : p.outBits % 8 = 0) (hr : p.raw = true) : 2 * p.outBytes = p.outBits / 4 := by
  simp only [SpongeCall.outBytes, SpongeCall.digestBytes, hr, if_true]
  omega

/-- Settles O30: nout of the two calls in the two forms. -/
theorem outputLengthLaws : Obligations.OutputLengthLaws := by
  intro s t hc
  refine ⟨fun ht he => ?_, fun ht he => ?_, fun ht he => ?_, fun ht he => ?_⟩
  · obtain ⟨hcount, h8⟩ := SpongeCommand.exec_outCount (.inl ⟨rfl, rfl⟩) hc ht he
    exact hcount.trans (outBytes_hex h8 rfl)
  · obtain ⟨hcount, h8⟩ := SpongeCommand.exec_outCount (.inl ⟨rfl, rfl⟩) hc ht he
    exact hcount ▸ outBytes_raw h8 rfl
  · obtain ⟨hcount, h8⟩ := SpongeCommand.exec_outCount (.inr ⟨rfl, rfl⟩) hc ht he
    exact hcount.trans (outBytes_hex h8 rfl)
  · obtain ⟨hcount, h8⟩ := SpongeCommand.exec_outCount (.inr ⟨rfl, rfl⟩) hc ht he
    exact hcount ▸ outBytes_raw h8 rfl

/-- The successful end does not depend on the lanes. -/
theorem runSponge_withLanes {c : Except ErrCode SpongeCall} {s t : State} (hc : ∀ {e}, c = .error e → e ≠ .ok)
    (h : runSponge c s = .next t) (he : t.err = .ok) (L : Lanes) :
    t.lanes = zeroLanes ∧ runSponge c { s with lanes := L } = .next t := by
  rcases runSponge_next h with ⟨e, hop, rfl⟩ | ⟨p, rfl, rfl⟩
  · exact absurd he (hc hop)
  · exact ⟨rfl, rfl⟩

/-- Settles O31: the checks do not read the lanes, and neither does the effect. -/
theorem spongeCommandsIgnoreTheLanes : Obligations.SpongeCommandsIgnoreTheLanes := by
  intro i raw s t L hi ht he
  rcases hi with rfl | rfl
  · exact runSponge_withLanes hashOperands_error ht he L
  · exact runSponge_withLanes shakeOperands_error ht he L

/-! PERMUTE and CLEAR -/

/-- Settles O32: the rule of the PERMUTE arm. -/
theorem permuteResult : Obligations.PermuteResult := exec_permute

/-- Settles O34: the rule of the CLEAR arm. -/
theorem clearResult : Obligations.ClearResult :=
  fun raw s => ⟨_, exec_clear raw s, fun i => Vector.getElem_replicate i.isLt, rfl⟩

/-- Settles O33: by induction on n, the first command taken off. -/
theorem permutesInARow : Obligations.PermutesInARow := by
  intro f raw n h
  induction n generalizing f raw with
  | zero => exact ⟨rfl, rfl, rfl⟩
  | succ n ih =>
    have hfirst : f 1 = complete .ok { f 0 with lanes := keccakF (f 0).lanes } :=
      (Host.Outcome.next.inj ((exec_permute (raw 0) (f 0)).symm.trans (h 0 n.succ_pos))).symm
    have hrest := ih (fun k => f (k + 1)) (fun k => raw (k + 1)) fun k hk => h (k + 1) (Nat.succ_lt_succ hk)
    rw [hfirst] at hrest
    exact hrest

/-! What commands leave unchanged -/

theorem exec_stateCommand {i : Instr} {raw : Bool} (hi : i = .permute raw ∨ i = .clear raw) {s t : State}
    (ht : exec i s = .next t) : ∃ L, t = complete .ok { s with lanes := L } := by
  rcases hi with rfl | rfl <;> exact ⟨_, (Host.Outcome.next.inj ht).symm⟩

/-- A HASH or SHAKE stores to OBUF bytes 0 .. OUT_COUNT−1 only, and to none with an error (rules R203, R209). -/
theorem SpongeCommand.get?_outside {i : Instr} {raw : Bool} {p : SpongeCall} {s t : State} (h : SpongeCommand i raw p s)
    (hc : s.cfg.legal = true) (ht : exec i s = .next t) {a : Nat} (ha : a < 0x8000 ∨ 0x8000 + t.outCount.toNat ≤ a) :
    t.mem.get? a = s.mem.get? a := by
  by_cases he : t.err = .ok
  · obtain ⟨hcount, _⟩ := h.exec_outCount hc ht he
    obtain ⟨hcall, rfl⟩ := h.exec_ok ht he
    rw [hcount] at ha
    exact hcall.get?_outside ha
  · rw [exec_failed ht he, complete_mem]

/-- Settles O36: the fields that no end of a command writes, then the two kinds of commands. -/
theorem commandFrame : Obligations.CommandFrame := by
  intro i s t hc ht
  have hstate (raw : Bool) (hi : i = .permute raw ∨ i = .clear raw) :
      t.outCount = s.outCount ∧ t.draws = s.draws ∧ ∀ a, t.mem.get? a = s.mem.get? a := by
    obtain ⟨L, rfl⟩ := exec_stateCommand hi ht
    exact ⟨rfl, rfl, fun _ => rfl⟩
  have herror (he : t.err ≠ .ok) : t.lanes = s.lanes ∧ t.draws = s.draws ∧ ∀ a, t.mem.get? a = s.mem.get? a := by
    rw [exec_failed ht he]
    exact ⟨rfl, rfl, fun _ => rfl⟩
  have hsponge (raw : Bool) (hi : i = .hash raw ∨ i = .shake raw) (a : Nat)
      (ha : a < 0x8000 ∨ 0x8000 + t.outCount.toNat ≤ a) : t.mem.get? a = s.mem.get? a := by
    obtain ⟨p, hcmd⟩ := exists_spongeCommand hi s
    exact hcmd.get?_outside hc ht ha
  obtain ⟨e, L, m, n, d, rfl⟩ := exec_end ht
  exact ⟨rfl, rfl, rfl, rfl, rfl, rfl, rfl, hstate, fun raw hi => ⟨hsponge raw hi, herror⟩⟩

/-! Acceptance and completion -/

/-- While BUSY = 1 or `rst` is high every write is ignored (rules R70, R302). -/
theorem memWrite_ignored {s : State} (h : s.busy = true ∨ s.rst = true) (a : Addr) (n : Size) (v : Word) :
    memWrite s a n v = s :=
  if_pos (by rcases h with h | h <;> simp [h])

/-- Settles O38: the CSR write rule at CMD's address. -/
theorem cmdWriteIsAccepted : Obligations.CmdWriteIsAccepted :=
  fun _ w => ⟨fun hb hr => memWrite_csr hr hb rfl (by decide) w, fun h => memWrite_ignored h _ _ w⟩

/-- The block's turn completes a running command, reserved word or not (rule R201). -/
theorem blockTurn_completes {s : State} (hr : s.rst = false) (hb : s.busy = true) :
    ∃ t, blockTurn s = .next t ∧ t.busy = false ∧ t.done = true := by
  obtain ⟨w, hw⟩ := (busy_iff_running s).mp hb
  rw [blockTurn_running hr hw]
  cases decode w with
  | instr i =>
    obtain ⟨t, ht, hidle, hdone, _⟩ := everyCommandCompletes i s
    exact ⟨t, ht, hidle, hdone⟩
  | illegal why => exact ⟨complete .illegalCmd s, rfl, rfl, rfl⟩

/-- Within n steps the block has reached a state with BUSY 0 and DONE 1. -/
def CompletesWithin (n : Nat) (s : State) : Prop :=
  ∃ k t, k ≤ n ∧ core.run k s = .next t ∧ State.busy t = false ∧ State.done t = true

theorem run_succ (M : Host.Core) {s s' : M.State} (h : M.step s = .next s') (k : Nat) : M.run (k + 1) s = M.run k s' := by
  rw [Host.Core.run, h]

theorem completesWithin_succ {n : Nat} {s s' : State} (h : step s = .next s') (hs : CompletesWithin n s') :
    CompletesWithin (n + 1) s := by
  obtain ⟨k, t, hk, hrun, hend⟩ := hs
  exact ⟨k + 1, t, Nat.succ_le_succ hk, (run_succ core h k).trans hrun, hend⟩

/-- A step that is the block's turn ends the wait. -/
theorem completesWithin_of_blockTurn {s s' : State} (h : step s = blockTurn s') (hr : s'.rst = false)
    (hb : s'.busy = true) (n : Nat) : CompletesWithin (n + 1) s := by
  obtain ⟨t, ht, hend⟩ := blockTurn_completes hr hb
  exact completesWithin_succ (h.trans ht) ⟨0, t, n.zero_le, rfl, hend⟩

theorem noReset_cons (e : Event) (rest : List Event) :
    noReset (e :: rest) = true ↔ e ≠ .reset true ∧ noReset rest = true := by
  simp [noReset]

/-- Settles O56: by induction on the agenda; a host transaction leaves the command running, the block's turn completes it, and
an empty agenda gives the block its turn. -/
theorem acceptedCommandCompletes : Obligations.AcceptedCommandCompletes := by
  intro s hr hb hn
  change CompletesWithin (s.agenda.length + 1) s
  generalize ha : s.agenda = l at hn
  induction l generalizing s with
  | nil => exact completesWithin_of_blockTurn (step_agendaEmpty ha) hr hb 0
  | cons e rest ih =>
    have hstep := step_agenda ha
    obtain ⟨he, hrest⟩ := (noReset_cons e rest).mp hn
    cases e with
    | host tx =>
      obtain ⟨v, d, htx⟩ := hostTx_busy tx (s := { s with agenda := rest }) hb
      exact completesWithin_succ (hstep.trans (congrArg Host.Outcome.next htx)) (ih _ hr hb rfl hrest)
    | block => exact completesWithin_of_blockTurn hstep hr hb _
    | reset level =>
      cases level with
      | true => exact absurd rfl he
      | false => exact completesWithin_succ hstep (ih { s with rst := false, agenda := rest } rfl hb rfl hrest)

end Sys2Proof.Machine
end

section
/-! The forms of a lane (statements O13, O14). Limbs and halves are parts `extractLsb'` of the lane, and they lose no bit of it. So a
form is faithful when each operation on the parts of a lane gives the parts of the 64-bit result. -/

namespace Sys2Proof.Machine

/-- A form that stands for each lane in one way is faithful when each of its operations, on the forms of lanes, gives the form of
the 64-bit result (rule R250). -/
theorem Datapath.faithful_of_ofLane {α : Type} {d : Datapath α} (hlane : Function.LeftInverse d.toLane d.ofLane)
    (hform : Function.RightInverse d.toLane d.ofLane)
    (hxor : ∀ v w, d.xor (d.ofLane v) (d.ofLane w) = d.ofLane (v ^^^ w))
    (hand : ∀ v w, d.and (d.ofLane v) (d.ofLane w) = d.ofLane (v &&& w))
    (hnot : ∀ v, d.not (d.ofLane v) = d.ofLane (~~~ v))
    (hrotl : ∀ v n, n < 64 → d.rotl (d.ofLane v) n = d.ofLane (rotl64 v n))
    (hload : ∀ b, d.load b = d.ofLane (le64 b))
    (hstore : ∀ v, d.store (d.ofLane v) = leBytes v) : d.Faithful where
  ofLane := hlane
  xor a b := by rw [← hlane (_ ^^^ _), ← hxor, hform, hform]
  and a b := by rw [← hlane (_ &&& _), ← hand, hform, hform]
  not a := by rw [← hlane (~~~ _), ← hnot, hform]
  rotl a n hn := by rw [← hlane (rotl64 _ n), ← hrotl _ n hn, hform]
  load b _ := by rw [hload, hlane]
  store a := by rw [← hstore, hform]

/-! Bits and bytes of a part -/

theorem extractLsb'_getLsbD {w w' j : Nat} (v : BitVec w') (i : Nat) (hj : j < w) :
    (v.extractLsb' i w).getLsbD j = v.getLsbD (i + j) := by
  rw [BitVec.getLsbD_extractLsb', decide_eq_true hj, Bool.true_and]

theorem extractLsb'_not {w w' i : Nat} (v : BitVec w') (hi : i + w ≤ w') :
    (~~~ v).extractLsb' i w = ~~~ v.extractLsb' i w := by
  refine BitVec.eq_of_getLsbD_eq fun j hj => ?_
  have hin : i + j < w' := by omega
  simp only [extractLsb'_getLsbD _ _ hj, BitVec.getLsbD_not, hj, hin]

/-- Bytes k .. k+n−1 put together are that part of the whole assembly (rules R68, R161). -/
theorem fromLE_take_drop {w w' k n : Nat} (bs : List Byte) (hw : w = 8 * n) (hk : 8 * k + w ≤ w') :
    fromLE w ((bs.drop k).take n) = (fromLE w' bs).extractLsb' (8 * k) w := by
  refine BitVec.eq_of_getLsbD_eq fun i hi => ?_
  have hn : i / 8 < n := by omega
  have hb : i % 8 < 8 := Nat.mod_lt _ (by decide)
  rw [extractLsb'_getLsbD _ _ hi, ← Nat.div_add_mod i 8, ← Nat.add_assoc, ← Nat.mul_add,
    fromLE_getLsbD _ hb (by omega), fromLE_getLsbD _ hb (by omega)]
  simp [List.getD_eq_getElem?_getD, hn]

/-- The bytes of a part of n bytes are the whole value's bytes k .. k+n−1 (rules R68, R162). -/
theorem toLE_extractLsb' {w w' n : Nat} (v : BitVec w') (k : Nat) (hw : w = 8 * n) :
    toLE n (v.extractLsb' (8 * k) w) = (List.range n).map fun j => v.extractLsb' (8 * (k + j)) 8 := by
  refine List.map_congr_left fun j hj => ?_
  have hj := List.mem_range.mp hj
  refine BitVec.eq_of_getLsbD_eq fun b hb => ?_
  rw [extractLsb'_getLsbD _ _ hb, extractLsb'_getLsbD _ _ (by omega), extractLsb'_getLsbD _ _ hb, Nat.mul_add, Nat.add_assoc]

/-! Rotation of a part: its bits come from two parts that are neighbours in the lane -/

theorem shiftLeft_or_carry_zero {w : Nat} (a b : BitVec w) : (a <<< 0) ||| (b >>> (w - 0)) = a := by
  rw [BitVec.shiftLeft_zero, Nat.sub_zero, BitVec.ushiftRight_eq_zero (le_refl w), BitVec.or_zero]

/-- Bit j of a word shifted left by s and filled up from the top of the word below. -/
theorem shiftLeft_or_carry_getLsbD {w s j : Nat} (a b : BitVec w) (hs : s < w) (hj : j < w) :
    ((a <<< s) ||| (b >>> (w - s))).getLsbD j = if j < s then b.getLsbD (w + j - s) else a.getLsbD (j - s) := by
  rw [BitVec.getLsbD_or, BitVec.getLsbD_shiftLeft, BitVec.getLsbD_ushiftRight]
  by_cases h : j < s
  · have hi : w - s + j = w + j - s := by omega
    simp [h, hi]
  · have hb : b.getLsbD (w - s + j) = false := BitVec.getLsbD_of_ge _ _ (by omega)
    simp [h, hj, hb]

/-- The part at bit i of a rotation by n: the part at bit p, from where the rotation brings bit i + s, shifted by s, with the carry
from the part below it, at bit p' (rules R124, R252). -/
theorem rotl64_extractLsb' (v : Lane) {n w i s p p' : Nat} (hs : s < w := by omega) (hi : i + w ≤ 64 := by omega)
    (hp : p + w ≤ 64 := by omega) (hp' : p' + w ≤ 64 := by omega) (hfrom : (p + n) % 64 = (i + s) % 64 := by omega)
    (hbelow : (p' + w) % 64 = p := by omega) :
    (v.extractLsb' p w <<< s) ||| (v.extractLsb' p' w >>> (w - s)) = (rotl64 v n).extractLsb' i w := by
  refine BitVec.eq_of_getLsbD_eq fun j hj => ?_
  rw [shiftLeft_or_carry_getLsbD _ _ hs hj, extractLsb'_getLsbD _ _ hj, rotl64_getLsbD _ _ (by omega)]
  by_cases h : j < s
  · have hsrc : p' + (w + j - s) = (i + j + 64 - n % 64) % 64 := by omega
    rw [if_pos h, extractLsb'_getLsbD _ _ (by omega), hsrc]
  · have hsrc : p + (j - s) = (i + j + 64 - n % 64) % 64 := by omega
    rw [if_neg h, extractLsb'_getLsbD _ _ (by omega), hsrc]

/-! Four limbs (rules R251, R252) -/

theorem Limbs.pack_eq_append (l : Limbs) : l.pack = l.l0 ++ l.l1 ++ l.l2 ++ l.l3 := by
  have h : l.pack = (l.l0 ++ l.l1 ++ l.l2 ++ l.l3).setWidth 64 := by
    rw [BitVec.setWidth_append_append_append_eq_shiftLeft_setWidth_or, Limbs.pack]
  exact h.trans (BitVec.setWidth_eq (l.l0 ++ l.l1 ++ l.l2 ++ l.l3))

theorem Limbs.pack_unpack (v : Lane) : (Limbs.unpack v).pack = v := by
  have h1 : v.extractLsb' 48 16 ++ v.extractLsb' 32 16 = v.extractLsb' 32 32 :=
    BitVec.extractLsb'_append_extractLsb'_eq_extractLsb' rfl
  have h2 : v.extractLsb' 32 32 ++ v.extractLsb' 16 16 = v.extractLsb' 16 48 :=
    BitVec.extractLsb'_append_extractLsb'_eq_extractLsb' rfl
  have h3 : v.extractLsb' 16 48 ++ v.extractLsb' 0 16 = v := BitVec.extractLsb'_append_extractLsb' (w := 48)
  rw [Limbs.pack_eq_append, Limbs.unpack, h1, h2, h3]

theorem Limbs.unpack_pack (l : Limbs) : Limbs.unpack l.pack = l := by
  have happ {v : Nat} (x : BitVec v) (y : Limb) (k : Nat) : (x ++ y).extractLsb' (k + 16) 16 = x.extractLsb' k 16 :=
    BitVec.extractLsb'_append_eq_of_le (Nat.le_add_left 16 k)
  have h0 : (l.l0 ++ l.l1 ++ l.l2 ++ l.l3).extractLsb' 48 16 = l.l0 :=
    (happ _ l.l3 32).trans <| (happ _ l.l2 16).trans BitVec.extractLsb'_append_eq_left
  have h1 : (l.l0 ++ l.l1 ++ l.l2 ++ l.l3).extractLsb' 32 16 = l.l1 :=
    (happ _ l.l3 16).trans <| (happ _ l.l2 0).trans BitVec.extractLsb'_append_eq_right
  have h2 : (l.l0 ++ l.l1 ++ l.l2 ++ l.l3).extractLsb' 16 16 = l.l2 :=
    (happ _ l.l3 0).trans BitVec.extractLsb'_append_eq_right
  have h3 : (l.l0 ++ l.l1 ++ l.l2 ++ l.l3).extractLsb' 0 16 = l.l3 := BitVec.extractLsb'_append_eq_right
  rw [Limbs.unpack, Limbs.pack_eq_append, h0, h1, h2, h3]

/-- Limb m by significance is bits 16m .. 16m+15 of the lane (rule R252). -/
theorem Limbs.unpack_bySignificance (v : Lane) (m : Fin 4) :
    (Limbs.unpack v).bySignificance m = v.extractLsb' (16 * m.val) 16 := by
  match m with
  | 0 | 1 | 2 | 3 => rfl

/-- Rule R252's case s = 0 is its case s > 0 with nothing to carry. -/
theorem Limbs.rotatedLimb_eq (l : Limbs) (n : Nat) (m : Fin 4) :
    l.rotatedLimb n m = (l.bySignificance (m - Fin.ofNat 4 (n / 16)) <<< (n % 16)) |||
      (l.bySignificance (m - Fin.ofNat 4 (n / 16) - 1) >>> (16 - n % 16)) := by
  rw [Limbs.rotatedLimb]
  split
  · next h => rw [h, shiftLeft_or_carry_zero]
  · rfl

theorem Limbs.unpack_rotatedLimb (v : Lane) (n : Nat) (m : Fin 4) :
    (Limbs.unpack v).rotatedLimb n m = (rotl64 v n).extractLsb' (16 * m.val) 16 := by
  have hp : (m - Fin.ofNat 4 (n / 16)).val = (m.val + 4 - n / 16 % 4) % 4 := by
    rw [Fin.val_sub, Fin.val_ofNat]; omega
  have hp' : (m - Fin.ofNat 4 (n / 16) - 1).val = (m.val + 7 - n / 16 % 4) % 4 := by
    rw [Fin.val_sub, Fin.val_one, hp]; omega
  rw [Limbs.rotatedLimb_eq, Limbs.unpack_bySignificance, Limbs.unpack_bySignificance, hp, hp']
  exact rotl64_extractLsb' v

theorem Limbs.unpack_rotl (v : Lane) (n : Nat) : (Limbs.unpack v).rotl n = Limbs.unpack (rotl64 v n) := by
  simp only [Limbs.rotl, Limbs.unpack_rotatedLimb]
  rfl

theorem limbs16_load (b : List Byte) : limbs16.load b = Limbs.unpack (le64 b) := by
  have hlimb (k : Nat) (hk : k ≤ 6) : fromLE 16 ((b.drop k).take 2) = (le64 b).extractLsb' (8 * k) 16 :=
    fromLE_take_drop b rfl (by omega)
  have h0 : fromLE 16 (b.take 2) = (le64 b).extractLsb' 0 16 := hlimb 0 (by decide)
  simp only [limbs16, Limbs.unpack, hlimb 6 (by decide), hlimb 4 (by decide), hlimb 2 (by decide), h0]

theorem limbs16_store (v : Lane) : limbs16.store (Limbs.unpack v) = leBytes v := by
  have hlimb (k : Nat) := toLE_extractLsb' (w := 16) (n := 2) v k rfl
  exact congrArg₂ (· ++ ·) (congrArg₂ (· ++ ·) (congrArg₂ (· ++ ·) (hlimb 0) (hlimb 2)) (hlimb 4)) (hlimb 6)

theorem limbs16_faithful : limbs16.Faithful := by
  refine Datapath.faithful_of_ofLane Limbs.pack_unpack Limbs.unpack_pack ?_ ?_ ?_ (fun v n _ => Limbs.unpack_rotl v n)
    limbs16_load limbs16_store
  · intro v w
    simp only [limbs16, Limbs.unpack, BitVec.extractLsb'_xor]
  · intro v w
    simp only [limbs16, Limbs.unpack, BitVec.extractLsb'_and]
  · intro v
    simp [limbs16, Limbs.unpack, extractLsb'_not]

/-- Settles O13: packing loses no bit either way, and the operations are faithful part by part. -/
theorem limbDatapathIsFaithful : Obligations.LimbDatapathIsFaithful :=
  ⟨Limbs.pack_unpack, Limbs.unpack_pack, limbs16_faithful⟩

/-! Two halves (rule R254) -/

/-- The exchange by a rotation of 32 or more, then the shift with its carries; a shift by 0 carries nothing (assumption 12). -/
theorem Halves.rotl_eq (v : Halves) (n : Nat) : v.rotl n =
    if n / 32 % 2 = 0
    then ⟨(v.hi <<< (n % 32)) ||| (v.lo >>> (32 - n % 32)), (v.lo <<< (n % 32)) ||| (v.hi >>> (32 - n % 32))⟩
    else ⟨(v.lo <<< (n % 32)) ||| (v.hi >>> (32 - n % 32)), (v.hi <<< (n % 32)) ||| (v.lo >>> (32 - n % 32))⟩ := by
  rw [Halves.rotl]
  by_cases hs : n % 32 = 0
  · simp only [hs, shiftLeft_or_carry_zero, if_true]
  · simp only [hs, if_false]
    split <;> rfl

theorem halves32_rotl (v : Lane) (n : Nat) : halves32.rotl (halves32.ofLane v) n = halves32.ofLane (rotl64 v n) := by
  change Halves.rotl ⟨v.extractLsb' 32 32, v.extractLsb' 0 32⟩ n =
    ⟨(rotl64 v n).extractLsb' 32 32, (rotl64 v n).extractLsb' 0 32⟩
  rw [Halves.rotl_eq]
  by_cases hq : n / 32 % 2 = 0
  · rw [if_pos hq]
    exact congrArg₂ Halves.mk (rotl64_extractLsb' v) (rotl64_extractLsb' v)
  · rw [if_neg hq]
    exact congrArg₂ Halves.mk (rotl64_extractLsb' v) (rotl64_extractLsb' v)

theorem halves32_load (b : List Byte) : halves32.load b = halves32.ofLane (le64 b) := by
  have hhi : fromLE 32 ((b.drop 4).take 4) = (le64 b).extractLsb' 32 32 := fromLE_take_drop b rfl (by decide)
  have hlo : fromLE 32 (b.take 4) = (le64 b).extractLsb' 0 32 := fromLE_take_drop (k := 0) b rfl (by decide)
  simp only [halves32, hhi, hlo]

theorem halves32_store (v : Lane) : halves32.store (halves32.ofLane v) = leBytes v := by
  have hlo := toLE_extractLsb' (w := 32) (n := 4) v 0 rfl
  have hhi := toLE_extractLsb' (w := 32) (n := 4) v 4 rfl
  exact congrArg₂ (· ++ ·) hlo hhi

/-- Settles O14: no bit is lost either way, and the operations are faithful half by half. -/
theorem halfLaneDatapathIsFaithful : Obligations.HalfLaneDatapathIsFaithful := by
  refine Datapath.faithful_of_ofLane (fun _ => BitVec.extractLsb'_append_extractLsb' (w := 32)) ?_ ?_ ?_ ?_
    (fun v n _ => halves32_rotl v n) halves32_load halves32_store
  · intro a
    simp only [halves32, BitVec.extractLsb'_append_eq_left, BitVec.extractLsb'_append_eq_right]
  · intro v w
    simp only [halves32, BitVec.extractLsb'_xor]
  · intro v w
    simp only [halves32, BitVec.extractLsb'_and]
  · intro v
    simp [halves32, extractLsb'_not]

end Sys2Proof.Machine
end

section
/-! Reset edges (statement O51): a step on an edge is `resetEdge`, whose value at each level the laws of the state give. -/

namespace Sys2Proof.Machine

theorem step_resetEvent {s : State} {level : Bool} {rest : List Event} (h : s.agenda = .reset level :: rest) :
    step s = .next (resetEdge level { s with agenda := rest }) :=
  step_agenda h

/-- STATUS of an idle block with no result to show (rules R28, R41). -/
theorem status_eq_zero {s : State} (hs : s.seq = .idle) (hd : s.done = false) (he : s.err = .ok) : s.status = 0 := by
  rw [State.status, busy_idle hs, hd, he]
  rfl

/-- Settles O51: the high edge leads to the values of `State.resetOf`, read field by field; the low edge is `resetEdge_low`. -/
theorem resetEdgeRule : Obligations.ResetEdgeRule := by
  constructor
  · intro s rest h
    rw [step_resetEvent h, resetEdge_high]
    exact ⟨_, rfl, fun i => Vector.getElem_replicate i.isLt, status_eq_zero rfl rfl rfl,
      rfl, rfl, rfl, rfl, rfl, rfl, rfl, rfl, rfl, rfl, rfl⟩
  · intro s rest h
    rw [step_resetEvent h, resetEdge_low]

end Sys2Proof.Machine
end

section
/-! Host accesses in reset (statement O52): the level of `rst` is looked at before BUSY, the alignment and the address. -/

namespace Sys2Proof.Machine

theorem drawBytes_getElem? {n k : Nat} (d : Nat) (hk : k < n) : (drawBytes n d)[k]? = some (Config.freeByte (d + k)) := by
  simp [drawBytes, hk]

/-- A read while `rst` is high, at any address and alignment (rule R302, assumption 14). -/
theorem memRead_inReset {s : State} (h : s.rst = true) (a : Addr) (n : Size) :
    memRead s a n = (fromLE 32 (drawBytes n.bytes s.draws), s.draws + n.bytes) :=
  if_pos h

/-- Settles O52: a write is ignored, and byte k of the value read is its k-th draw. -/
theorem hostAccessDuringReset : Obligations.HostAccessDuringReset := by
  intro s h
  refine ⟨memWrite_ignored (.inr h), fun a n => ?_⟩
  rw [memRead_inReset h]
  refine ⟨rfl, fun k hk => ?_⟩
  have hroom : 8 * k + 8 ≤ 32 := by
    have hn := n.bytes_le
    omega
  rw [fromLE_byte _ hroom, List.getD_eq_getElem?_getD, drawBytes_getElem? _ hk, Option.getD_some]

end Sys2Proof.Machine
end
